-- ==== Sys2Proof/Word.lean ====
section
/-! DEFINITION. The machine's word types: the 8-bit cell and register value, and the 9-bit program counter. -/

namespace Sys2Proof

/-- A memory cell (CELL_BITS) or a register value (XLEN), unsigned 0 to 255 (10_state.md R22, 20_memory.md R50; log 21). -/
abbrev Byte := BitVec 8

/-- A program-counter value: 0 to 256, held in PC_BITS = 9 bits (10_state.md R30; log 21). -/
abbrev Pc := BitVec 9

/-- A register number R0 to R7 (10_state.md R21). -/
abbrev RegIdx := Fin 8

end Sys2Proof
end

