-- ==== Sys2Proof/Syntax.lean ====
section
/-! DEFINITION. The 21 operations, their formats, lengths and categories, and the instruction type: one constructor
per row of spec/opcode_table.json, in the table's order, with the row's operand bytes. -/

namespace Sys2Proof

/-- The 21 operations (30_encoding.md R84), in the opcode table's order. -/
inductive Op where
  | hlt | ldi | prn | push | pop | call | ret | jeq | jne
  | add | sub | mul | div | mod | cmp | and | or | xor | shl | shr | not
deriving DecidableEq, Repr

/-- Every operation once. -/
def Op.all : List Op :=
  [.hlt, .ldi, .prn, .push, .pop, .call, .ret, .jeq, .jne,
   .add, .sub, .mul, .div, .mod, .cmp, .and, .or, .xor, .shl, .shr, .not]

/-- The four formats (30_encoding.md R81): no operand, one register, two registers, register and immediate. -/
inductive Format where
  | z | r | rr | ri
deriving DecidableEq, Repr

/-- The format of each operation (30_encoding.md R81, R84). -/
def Op.format : Op → Format
  | .hlt | .ret => .z
  | .prn | .push | .pop | .call | .jeq | .jne | .not => .r
  | .add | .sub | .mul | .div | .mod | .cmp | .and | .or | .xor | .shl | .shr => .rr
  | .ldi => .ri

/-- How many operand bytes follow the opcode byte (30_encoding.md R81). -/
def Format.operandCount : Format → Nat
  | .z => 0
  | .r => 1
  | .rr => 2
  | .ri => 2

/-- The length in bytes, "the opcode byte plus its operand bytes" (30_encoding.md R80). -/
def Op.length (o : Op) : Nat := o.format.operandCount + 1

/-- The source's five categories (30_encoding.md R82). -/
inductive Category where
  | noOperand | singleRegister | twoRegister | immediateLoad | controlTransfer
deriving DecidableEq, Repr

/-- The category of each operation (30_encoding.md R82). -/
def Op.category : Op → Category
  | .hlt => .noOperand
  | .prn | .push | .pop | .not => .singleRegister
  | .add | .sub | .mul | .div | .mod | .cmp | .and | .or | .xor | .shl | .shr => .twoRegister
  | .ldi => .immediateLoad
  | .call | .ret | .jeq | .jne => .controlTransfer

/-- "jumps/calls/returns are the only instructions permitted to bypass the automatic PC advance" (R82). -/
def Op.mayBypassAdvance (o : Op) : Bool := o.category == .controlTransfer

/-- The mnemonic of each operation (30_encoding.md R84, R91). -/
def Op.mnemonic : Op → String
  | .hlt => "HLT" | .ldi => "LDI" | .prn => "PRN" | .push => "PUSH" | .pop => "POP" | .call => "CALL" | .ret => "RET"
  | .jeq => "JEQ" | .jne => "JNE" | .add => "ADD" | .sub => "SUB" | .mul => "MUL" | .div => "DIV" | .mod => "MOD"
  | .cmp => "CMP" | .and => "AND" | .or => "OR" | .xor => "XOR" | .shl => "SHL" | .shr => "SHR" | .not => "NOT"

/-- The source document's name of each operation (30_encoding.md R84, second column). -/
def Op.sourceName : Op → String
  | .hlt => "HALT" | .ldi => "LOAD-IMMEDIATE" | .prn => "PRINT-REGISTER" | .ret => "RETURN"
  | .jeq => "JUMP-IF-EQUAL" | .jne => "JUMP-IF-NOT-EQUAL"
  | o => o.mnemonic

/-- An instruction with its operand bytes as they stand in memory: `a` and `b` in a register position are the WHOLE
byte (30_encoding.md R83, "No bits are masked off, none are ignored"); a byte of 8 or more there is an instruction
that runs and raises AddressOutOfRange (10_state.md R24). DESIGN CHOICE, safe (log 8). -/
inductive Instr where
  | hlt
  | ldi (a imm : Byte)
  | prn (a : Byte)
  | push (a : Byte)
  | pop (a : Byte)
  | call (a : Byte)
  | ret
  | jeq (a : Byte)
  | jne (a : Byte)
  | add (a b : Byte)
  | sub (a b : Byte)
  | mul (a b : Byte)
  | div (a b : Byte)
  | mod (a b : Byte)
  | cmp (a b : Byte)
  | and (a b : Byte)
  | or (a b : Byte)
  | xor (a b : Byte)
  | shl (a b : Byte)
  | shr (a b : Byte)
  | not (a : Byte)
deriving DecidableEq, Repr

/-- The operation of an instruction. -/
def Instr.op : Instr → Op
  | .hlt => .hlt
  | .ldi _ _ => .ldi
  | .prn _ => .prn
  | .push _ => .push
  | .pop _ => .pop
  | .call _ => .call
  | .ret => .ret
  | .jeq _ => .jeq
  | .jne _ => .jne
  | .add _ _ => .add
  | .sub _ _ => .sub
  | .mul _ _ => .mul
  | .div _ _ => .div
  | .mod _ _ => .mod
  | .cmp _ _ => .cmp
  | .and _ _ => .and
  | .or _ _ => .or
  | .xor _ _ => .xor
  | .shl _ _ => .shl
  | .shr _ _ => .shr
  | .not _ => .not

/-- The operand bytes in the order they follow the opcode byte (30_encoding.md R81, 20_memory.md R55). -/
def Instr.operands : Instr → List Byte
  | .hlt | .ret => []
  | .prn a | .push a | .pop a | .call a | .jeq a | .jne a | .not a => [a]
  | .ldi a b | .add a b | .sub a b | .mul a b | .div a b | .mod a b | .cmp a b
  | .and a b | .or a b | .xor a b | .shl a b | .shr a b => [a, b]

/-- The operand bytes in a register position (30_encoding.md R81; LDI's second byte is not one, 60_exceptions.md R192). -/
def Instr.regOperands : Instr → List Byte
  | .hlt | .ret => []
  | .prn a | .push a | .pop a | .call a | .jeq a | .jne a | .not a => [a]
  | .ldi a _ => [a]
  | .add a b | .sub a b | .mul a b | .div a b | .mod a b | .cmp a b
  | .and a b | .or a b | .xor a b | .shl a b | .shr a b => [a, b]

end Sys2Proof
end

