-- ==== Sys2Proof/Config.lean ====
section
/-! DEFINITION. The parameters of 00_scope.md R6: constants the source fixes, and the record of those the spec asks a
model to expose (92_eei_decisions.md, last section), with the enumerations they range over. The values the machine
takes (`Config.spec`) stand in Decode.lean, after the opcode table. -/

namespace Sys2Proof

/-- The flag register's values (10_state.md R34): three comparison outcomes, and NONE from reset to the first CMP. -/
inductive Flag where
  | none | equal | greaterThan | lessThan
deriving DecidableEq, Repr

/-- The four fault kinds (60_exceptions.md R191). -/
inductive FaultKind where
  | addressOutOfRange | illegalInstruction | unsupportedAluOperation | divisionByZero
deriving DecidableEq, Repr

/-- The two roundings the source offers for DIV (92_eei_decisions.md D2). -/
inductive DivRound where
  | floor | truncate
deriving DecidableEq, Repr

/-- MEM_SIZE: the number of memory cells. -/
abbrev Config.memSize : Nat := 256

/-- MEM_RESET: every memory cell at reset (20_memory.md R51), hence what an unlisted cell reads as. -/
def Config.memReset : Byte := 0

/-- SP_INDEX: the register used as stack pointer (10_state.md R23). -/
abbrev Config.spIndex : RegIdx := 7

/-- SP_RESET (10_state.md R28). -/
abbrev Config.spReset : Byte := 244

/-- PC_RESET (10_state.md R32). -/
abbrev Config.pcReset : Pc := 0

/-- LOAD_BASE: the address of the first program byte (20_memory.md R66). -/
abbrev Config.loadBase : Nat := 0

/-- The parameters the spec decides, each at its default unless a configuration says otherwise: every "decision" row of
00_scope.md R6 (92_eei_decisions.md D1, D2, D6, D7, D8, D10, D14). -/
structure Config where
  /-- XLEN: the width of a register; every register write is reduced modulo 2 to this power (D1). The spec offers no
  other value (93_implementation_defined.md U1), and `Byte` is the type of this width (log 21). -/
  xlen : Nat := 8
  /-- PC_BITS: the width of the program counter (D10); `Pc` is the type of this width (log 21). -/
  pcBits : Nat := 9
  /-- OPCODE_MAP: the opcode byte of each operation (D8). -/
  opcodeMap : Op → Byte
  /-- FLAG_RESET: the flag at reset (D6). -/
  flagReset : Flag
  /-- REG_RESET: R0 to R6 at reset (D7). -/
  regReset : Vector Byte 7
  /-- DIV_ROUND: the rounding of DIV (D2), unobservable on unsigned operands. -/
  divRound : DivRound
  /-- FAULT_CODE: the number of each fault kind on the fault port (D14). -/
  faultCode : FaultKind → BitVec 3

/-- The constraint on OPCODE_MAP: the byte values are distinct (30_encoding.md R85). -/
def Config.OpcodesDistinct (c : Config) : Prop := ∀ o o' : Op, c.opcodeMap o = c.opcodeMap o' → o = o'

end Sys2Proof
end

