-- ==== Sys2Proof/WellFormed.lean ====
section
/-! DEFINITION. Well-formed instructions: every byte in a register position is a register number, 0 to 7
(10_state.md R24, 30_encoding.md R83). The immediate of LDI is unrestricted (30_encoding.md R89). -/

namespace Sys2Proof

/-- A register operand byte names a register: its whole value is at most 7. -/
def Byte.isReg (b : Byte) : Bool := decide (b.toNat ≤ 7)

/-- Every register operand byte of the instruction names a register. -/
def Instr.wf (i : Instr) : Bool := i.regOperands.all Byte.isReg

end Sys2Proof
end

