-- ==== Sys2Proof/Decode.lean ====
section
/-! DEFINITION. The opcode map, the configuration the machine takes, the decoder (total on any bytes, rejecting by
name), and the encoder written from the same tables (30_encoding.md R80 to R90). -/

namespace Sys2Proof

/-- The opcode byte of each operation (30_encoding.md R84, the default of OPCODE_MAP). UNVERIFIED: the rule's
values are the spec's decision D8, "from general knowledge, not in source"; unsafe (log 3). -/
def opcodeByte : Op → Byte
  | .hlt => 0b00000001#8
  | .ldi => 0b10000010#8
  | .prn => 0b01000111#8
  | .push => 0b01000101#8
  | .pop => 0b01000110#8
  | .call => 0b01010000#8
  | .ret => 0b00010001#8
  | .jeq => 0b01010101#8
  | .jne => 0b01010110#8
  | .add => 0b10100000#8
  | .sub => 0b10100001#8
  | .mul => 0b10100010#8
  | .div => 0b10100011#8
  | .mod => 0b10100100#8
  | .cmp => 0b10100111#8
  | .and => 0b10101000#8
  | .or => 0b10101010#8
  | .xor => 0b10101011#8
  | .shl => 0b10101100#8
  | .shr => 0b10101101#8
  | .not => 0b01101001#8

/-- The number of each fault kind (60_exceptions.md R191, the default of FAULT_CODE). -/
def faultCodeDefault : FaultKind → BitVec 3
  | .addressOutOfRange => 1
  | .illegalInstruction => 2
  | .unsupportedAluOperation => 3
  | .divisionByZero => 4

/-- The configuration of this machine: every parameter at the spec's default (00_scope.md R6). -/
def Config.spec : Config where
  xlen := 8
  pcBits := 9
  opcodeMap := opcodeByte
  flagReset := .none
  regReset := #v[0, 0, 0, 0, 0, 0, 0]
  divRound := .floor
  faultCode := faultCodeDefault

/-- `Decode(op)` of 30_encoding.md R88: the operation whose opcode byte is `b`, or none for an illegal byte. The whole
byte is compared. -/
def Config.opOf (c : Config) (b : Byte) : Option Op := Op.all.find? fun o => c.opcodeMap o == b

/-- The instruction of an operation and its operand bytes; a byte the format does not have is not used. -/
def Op.assemble (o : Op) (a b : Byte) : Instr :=
  match o with
  | .hlt => .hlt
  | .ldi => .ldi a b
  | .prn => .prn a
  | .push => .push a
  | .pop => .pop a
  | .call => .call a
  | .ret => .ret
  | .jeq => .jeq a
  | .jne => .jne a
  | .add => .add a b
  | .sub => .sub a b
  | .mul => .mul a b
  | .div => .div a b
  | .mod => .mod a b
  | .cmp => .cmp a b
  | .and => .and a b
  | .or => .or a b
  | .xor => .xor a b
  | .shl => .shl a b
  | .shr => .shr a b
  | .not => .not a

/-- Why a list of bytes is not an instruction. A missing byte is AddressOutOfRange on the machine (40_dispatch.md R111,
R113), an illegal opcode IllegalInstruction (R112): see Machine/Fetch.lean. -/
inductive DecodeError where
  /-- There is no opcode byte. -/
  | noOpcode
  /-- The opcode byte is none of the 21 (30_encoding.md R88). -/
  | illegalOpcode (b : Byte)
  /-- The operation is known and an operand byte is missing. -/
  | missingOperand (o : Op)
deriving DecidableEq, Repr

/-- Decode the instruction at the head of a list of bytes and give the bytes after it (30_encoding.md R88, R90): the
opcode byte alone determines how many operand bytes are taken. -/
def decodeWith (c : Config) (bytes : List Byte) : Except DecodeError (Instr × List Byte) :=
  match bytes with
  | [] => .error .noOpcode
  | op :: rest =>
    match c.opOf op with
    | none => .error (.illegalOpcode op)
    | some o =>
      match o.format.operandCount, rest with
      | 0, r => .ok (o.assemble 0 0, r)
      | 1, a :: r => .ok (o.assemble a 0, r)
      | 2, a :: b :: r => .ok (o.assemble a b, r)
      | _, _ => .error (.missingOperand o)

/-- The decoder of this machine. -/
def decode (bytes : List Byte) : Except DecodeError (Instr × List Byte) := decodeWith Config.spec bytes

/-- The bytes of an instruction: the opcode byte, then the operand bytes (30_encoding.md R81). -/
def encodeWith (c : Config) (i : Instr) : List Byte := c.opcodeMap i.op :: i.operands

/-- The encoder of this machine. -/
def encode (i : Instr) : List Byte := encodeWith Config.spec i

/-- The three bytes, lowest address first, of an instruction word numbered as the opcode table numbers it: bits 7:0 are
the first byte, bits 15:8 the second, bits 23:16 the third; the bits from `nbits` on are 0. -/
def tableWordBytes (nbits w : Nat) : List Byte :=
  let v := w % 2 ^ nbits
  [BitVec.ofNat 8 v, BitVec.ofNat 8 (v / 256), BitVec.ofNat 8 (v / 65536)]

/-- The instruction the decoder reads from a table word, none where it refuses. -/
def decodeTableWord (nbits w : Nat) : Option Instr :=
  match decode (tableWordBytes nbits w) with
  | .ok (i, _) => some i
  | .error _ => none

end Sys2Proof
end

