-- ==== Sys2Proof/Machine/State.lean ====
section
/-! DEFINITION. The machine's state, its value after reset, and the reasons a step can stop (10_state.md R20, R42;
40_dispatch.md R119). -/

namespace Sys2Proof.Machine

/-- The run state of the dispatcher (10_state.md R33). `at_` is the `pc` of the faulting instruction's opcode byte. -/
inductive Run where
  | running
  | halted
  | faulted (kind : FaultKind) (at_ : Pc)
deriving DecidableEq, Repr

/-- Memory as a list of the cells that differ from the reset value, addresses strictly rising (log 7). -/
abbrev Memory := List Host.Cell

/-- The whole state, "exactly this aggregate, and nothing else" (10_state.md R20). -/
structure State where
  /-- `mem`, 256 cells of 8 bits (20_memory.md R50). -/
  mem : Memory
  /-- `x[0]` to `x[7]`; `x[7]` is the stack pointer (10_state.md R21 to R23). -/
  regs : Vector Byte 8
  /-- The program counter, 0 to 256 (10_state.md R29, R30). -/
  pc : Pc
  /-- The flag register (10_state.md R34). -/
  fl : Flag
  /-- The run state (10_state.md R33). -/
  run : Run
  /-- The output log, oldest value first (10_state.md R37). -/
  out : List Byte
deriving DecidableEq, Repr

/-- Why a step stops with a fault. -/
inductive Fault where
  /-- Raised by `step` alone, in a FAULTED state, which has no step (40_dispatch.md R119): the fault record that the
  faulting step left in `run`, surfaced to the caller (60_exceptions.md R196, R213). Safe: nothing goes on (log 1). -/
  | surfaced (kind : FaultKind) (at_ : Pc)
deriving DecidableEq, Repr

/-- Why a step is refused. -/
inductive Refusal where
  /-- An instruction that has no meaning yet, by its mnemonic; raised by no arm of `exec`. Safe. -/
  | notModelled (mnemonic : String)
  /-- Raised by `step` alone, in the HALTED state, which has no step: "no further iterations" (40_dispatch.md R119).
  Safe: nothing goes on (log 2). -/
  | halted
deriving DecidableEq, Repr

/-- The state after reset and before the load, for any values of the parameters (10_state.md R42, 70_reset R230). -/
def State.resetWith (c : Config) : State where
  mem := []
  regs := #v[c.regReset[0], c.regReset[1], c.regReset[2], c.regReset[3], c.regReset[4], c.regReset[5], c.regReset[6],
    Config.spReset]
  pc := Config.pcReset
  fl := c.flagReset
  run := .running
  out := []

/-- The state right after reset: memory all 0, R0 to R6 = 0 (decision D7), R7 = 244, pc = 0, fl = NONE (decision D6),
RUNNING, nothing printed (10_state.md R42). -/
def State.reset : State := State.resetWith Config.spec

end Sys2Proof.Machine
end

