-- ==== Sys2Proof/Machine/Ops.lean ====
section
/-! DEFINITION. The named operations over memory and registers, the program-counter sequencer, the output port, and
raising a fault (00_scope.md R9, 20_memory.md R53, 10_state.md R24, 60_exceptions.md R196). There is no return from a
fault to write beside it: "There is no trap-return instruction and no way to resume after a fault" (R201). -/

namespace Sys2Proof.Machine

/-- `trunc8(n)`: the unique value of 0 to 255 that differs from `n` by a multiple of 256 (00_scope.md R9), that is `n`
reduced to the register width XLEN (decision D1). -/
def trunc8 (n : Int) : Byte := BitVec.ofInt Config.spec.xlen n

/-- A byte as a program-counter value of PC_BITS bits, the same number (`zext` of 00_scope.md R9). -/
def zextPc (b : Byte) : Pc := b.setWidth Config.spec.pcBits

/-- A number as a program-counter value of PC_BITS bits. -/
def pcOfNat (n : Nat) : Pc := BitVec.ofNat Config.spec.pcBits n

/-- Read a cell: an unlisted cell holds the reset value 0 (20_memory.md R51). -/
def Memory.get : Memory → Nat → Byte
  | [], _ => Config.memReset
  | (k, v) :: rest, a => if k = a then v else Memory.get rest a

/-- Write a cell, keeping the canonical form: a cell that comes to hold the reset value is not listed (log 7). -/
def Memory.put : Memory → Nat → Byte → Memory
  | [], a, v => if v = Config.memReset then [] else [(a, v)]
  | (k, w) :: rest, a, v =>
    if a < k then
      if v = Config.memReset then (k, w) :: rest else (a, v) :: (k, w) :: rest
    else if a = k then
      if v = Config.memReset then rest else (a, v) :: rest
    else
      (k, w) :: Memory.put rest a v

/-- Every listed address is at least `lo` and inside memory, addresses rise strictly, no listed cell holds the reset
value. -/
def Memory.wfFrom : Nat → Memory → Bool
  | _, [] => true
  | lo, (k, v) :: rest =>
    decide (lo ≤ k) && decide (k < Config.memSize) && decide (v ≠ Config.memReset) && Memory.wfFrom (k + 1) rest

/-- The canonical form of a memory. -/
def Memory.wf (m : Memory) : Bool := Memory.wfFrom 0 m

/-- The address decoder's check, on an integer that may lie outside memory (20_memory.md R53). -/
abbrev AddrInRange (addr : Int) : Prop := 0 ≤ addr ∧ addr < (Config.memSize : Nat)

/-- `MemRead(addr, 1)` (00_scope.md R9). -/
def memRead (s : State) (addr : Int) : Except FaultKind Byte :=
  if AddrInRange addr then .ok (s.mem.get addr.toNat) else .error .addressOutOfRange

/-- `MemWrite(addr, 1, v)` (00_scope.md R9). -/
def memWrite (s : State) (addr : Int) (v : Byte) : Except FaultKind State :=
  if AddrInRange addr then .ok { s with mem := s.mem.put addr.toNat v } else .error .addressOutOfRange

/-- `x[i]` (00_scope.md R8): the register file's `get` (10_state.md R24). No register is hardwired (R21). -/
def State.reg (s : State) (i : RegIdx) : Byte := s.regs[i.val]

/-- `x[i] <- v`: the register file's `set` (10_state.md R24). -/
def State.setReg (s : State) (i : RegIdx) (v : Byte) : State := { s with regs := s.regs.set i.val v }

/-- The stack pointer, register 7 (10_state.md R23). -/
def State.sp (s : State) : Byte := s.reg Config.spIndex

/-- `pc <- t` with an explicit target; nothing is added (40_dispatch.md R116). -/
def State.setPc (s : State) (t : Pc) : State := { s with pc := t }

/-- `pc <- p + length` (40_dispatch.md R115). -/
def State.advance (s : State) (length : Nat) : State :=
  { s with pc := s.pc + pcOfNat length }

/-- `fl <- f`. -/
def State.setFlag (s : State) (f : Flag) : State := { s with fl := f }

/-- `Emit(v)`: append one value to the output log (00_scope.md R9, 10_state.md R37). -/
def State.emit (s : State) (v : Byte) : State := { s with out := s.out ++ [v] }

/-- `raise K`: fault entry (60_exceptions.md R196, R197). `run` becomes FAULTED(kind, p) with p the address of the
instruction's opcode byte, which `pc` still holds; nothing else changes; control goes nowhere. -/
def State.raise (s : State) (k : FaultKind) : State := { s with run := .faulted k s.pc }

/-- The end of an instruction begun in `s`: its next state, or fault entry from `s` itself, so that a faulting
instruction has no effect (60_exceptions.md R197). -/
def settle (s : State) (r : Except FaultKind State) : Host.Outcome State Fault Refusal :=
  match r with
  | .ok t => .next t
  | .error k => .next (s.raise k)

end Sys2Proof.Machine
end

