-- ==== Sys2Proof/Machine/Operands.lean ====
section
/-! DEFINITION. The operand forms: the register operand (30_encoding.md R83), and the one addressing mode, through the
stack pointer, with pre-decrement on write and post-increment on read (43_stack.md). -/

namespace Sys2Proof.Machine

/-- `Reg(b)`: the whole operand byte is the register index; 8 or more raises AddressOutOfRange (00_scope.md R9,
10_state.md R24). -/
def regIndex (b : Byte) : Except FaultKind RegIdx :=
  if h : b.toNat < 8 then .ok ⟨b.toNat, h⟩ else .error .addressOutOfRange

/-- The address a push writes: the stack pointer minus 1, an integer -1 to 254, not reduced (43_stack.md R170). -/
def pushAddr (s : State) : Int := (s.sp.toNat : Int) - 1

/-- The address a pop reads: the stack pointer (43_stack.md R171). -/
def popAddr (s : State) : Int := (s.sp.toNat : Int)

/-- Push one byte: decrement the stack pointer, then write at its new value; address -1 is MemWrite's range fault, and
then nothing is written (43_stack.md R170). -/
def pushByte (s : State) (v : Byte) : Except FaultKind State := do
  let t ← memWrite s (pushAddr s) v
  pure (t.setReg Config.spIndex (trunc8 (pushAddr s)))

/-- The stack pointer after the increment of a pop, from the value it has just before; 256 is not an address and raises
AddressOutOfRange (43_stack.md R171, decision D11). -/
def incrementSp (sp : Byte) : Except FaultKind Byte :=
  if sp.toNat + 1 > 255 then .error .addressOutOfRange else .ok (trunc8 (sp.toNat + 1))

/-- The value PUSH stores for register `a`: the register is read after the stack pointer has moved, so PUSH R7 stores
the new stack pointer (43_stack.md R170, decision D18; DEDUCED by the spec from its source's word order, log 11). -/
def pushOperand (s : State) (a : RegIdx) : Byte :=
  if a = Config.spIndex then trunc8 (pushAddr s) else s.reg a

/-- The return address of a CALL at `p`: `p + 2`, not reduced (44_control_transfer.md R180). -/
def returnAddr (s : State) : Nat := s.pc.toNat + 2

/-- The return address as the one byte a memory cell holds; 256 or more raises AddressOutOfRange (44_control_transfer.md
R180, decision D12). -/
def returnByte (s : State) : Except FaultKind Byte :=
  if returnAddr s > 255 then .error .addressOutOfRange else .ok (trunc8 (returnAddr s))

end Sys2Proof.Machine
end

