-- ==== Sys2Proof/Machine/Flags.lean ====
section
/-! DEFINITION. The one flag computation of the machine, CMP's comparison (41_alu.md R146), the test the conditional
jumps make (10_state.md R35), and the flag byte of 10_state.md R44. There is no carry, overflow, zero or sign flag
(41_alu.md R132). -/

namespace Sys2Proof.Machine

/-- The unsigned comparison of CMP (41_alu.md R146, decision D5). -/
def compareFlag (a b : Byte) : Flag :=
  if a.toNat = b.toNat then .equal else if a.toNat > b.toNat then .greaterThan else .lessThan

/-- What JEQ and JNE test: `fl == EQUAL`. NONE is not EQUAL (10_state.md R36). -/
def flagIsEqual (f : Flag) : Bool := f == .equal

/-- The hardware encoding of the flag register: L, G, E in bits 2, 1, 0 of a byte whose other bits are 0
(10_state.md R44; the layout is the spec's, from general knowledge, and no program or port can see it). -/
def flagLayout : Flag → Byte
  | .none => 0b000
  | .equal => 0b001
  | .greaterThan => 0b010
  | .lessThan => 0b100

end Sys2Proof.Machine
end

