-- ==== Sys2Proof/Machine/Alu.lean ====
section
/-! DEFINITION. The ALU as a block (41_alu.md R130 to R134, 30_encoding.md R87) and the meanings of the twelve ALU
instructions (41_alu.md R135 to R146). -/

namespace Sys2Proof.Machine

/-- The twelve supported ALU operations (30_encoding.md R87). -/
inductive AluOp where
  | add | sub | mul | div | mod | cmp | and | not | or | xor | shl | shr
deriving DecidableEq, Repr

/-- What the ALU delivers: a register value, or a comparison outcome for the flag register (41_alu.md R130). -/
inductive AluResult where
  | value (v : Byte)
  | comparison (f : Flag)
deriving DecidableEq, Repr

/-- The 4-bit operation select of each supported operation (30_encoding.md R87). -/
def AluOp.select : AluOp → BitVec 4
  | .add => 0b0000#4
  | .sub => 0b0001#4
  | .mul => 0b0010#4
  | .div => 0b0011#4
  | .mod => 0b0100#4
  | .cmp => 0b0111#4
  | .and => 0b1000#4
  | .not => 0b1001#4
  | .or => 0b1010#4
  | .xor => 0b1011#4
  | .shl => 0b1100#4
  | .shr => 0b1101#4

/-- Every ALU operation once. -/
def AluOp.all : List AluOp := [.add, .sub, .mul, .div, .mod, .cmp, .and, .not, .or, .xor, .shl, .shr]

/-- The operation a select code stands for; none for 0101, 0110, 1110 and 1111 (30_encoding.md R87). -/
def AluOp.ofSelect (sel : BitVec 4) : Option AluOp := AluOp.all.find? fun o => o.select == sel

/-- The ALU operation that the dispatcher invokes for an operation: the twelve ALU rows only (30_encoding.md R87,
60_exceptions.md R194). -/
def aluOpOf : Op → Option AluOp
  | .add => some .add
  | .sub => some .sub
  | .mul => some .mul
  | .div => some .div
  | .mod => some .mod
  | .cmp => some .cmp
  | .and => some .and
  | .not => some .not
  | .or => some .or
  | .xor => some .xor
  | .shl => some .shl
  | .shr => some .shr
  | .hlt | .ldi | .prn | .push | .pop | .call | .ret | .jeq | .jne => none

/-- The integer quotient under a rounding; on unsigned operands the two agree (41_alu.md R138, decision D2). -/
def quotient (r : DivRound) (u v : Byte) : Int :=
  match r with
  | .floor => Int.fdiv u.toNat v.toNat
  | .truncate => Int.tdiv u.toNat v.toNat

/-- `u div v` after the divisor check (41_alu.md R138). -/
def aluDiv (u v : Byte) : Except FaultKind Byte :=
  if v.toNat = 0 then .error .divisionByZero else .ok (trunc8 (quotient Config.spec.divRound u v))

/-- `u mod v`, that is u - v * floor(u / v), after the divisor check (41_alu.md R139, decision D3). -/
def aluMod (u v : Byte) : Except FaultKind Byte :=
  if v.toNat = 0 then .error .divisionByZero
  else .ok (trunc8 ((u.toNat : Int) - v.toNat * quotient .floor u v))

/-- One supported operation on the two 8-bit inputs: computed as a mathematical integer, then reduced with `trunc8`
(41_alu.md R131, R132). NOT uses the first input only. -/
def aluCompute (o : AluOp) (u v : Byte) : Except FaultKind AluResult :=
  match o with
  | .add => .ok (.value (trunc8 ((u.toNat : Int) + v.toNat)))
  | .sub => .ok (.value (trunc8 ((u.toNat : Int) - v.toNat)))
  | .mul => .ok (.value (trunc8 ((u.toNat : Int) * v.toNat)))
  | .div => (aluDiv u v).map .value
  | .mod => (aluMod u v).map .value
  | .cmp => .ok (.comparison (compareFlag u v))
  | .and => .ok (.value (u &&& v))
  | .not => .ok (.value (trunc8 (255 - (u.toNat : Int))))
  | .or => .ok (.value (u ||| v))
  | .xor => .ok (.value (u ^^^ v))
  | .shl => .ok (.value (trunc8 ((u.toNat : Int) * 2 ^ v.toNat)))
  | .shr => .ok (.value (trunc8 ((u.toNat : Int) / 2 ^ v.toNat)))

/-- The ALU block: a select code outside the supported set answers UnsupportedAluOperation, "never silently no-op"
(30_encoding.md R87, 60_exceptions.md R194). -/
def alu (sel : BitVec 4) (u v : Byte) : Except FaultKind AluResult :=
  match AluOp.ofSelect sel with
  | none => .error .unsupportedAluOperation
  | some o => aluCompute o u v

/-- The dispatcher takes the ALU's result: a value goes to the first operand's register, a comparison to `fl`
(41_alu.md R130, R134). -/
def writeAluResult (s : State) (a : RegIdx) (r : AluResult) : State :=
  match r with
  | .value v => s.setReg a v
  | .comparison f => s.setFlag f

/-- The eleven two-register ALU instructions (41_alu.md R133): both indices checked, first then second, both registers
read, the result computed, then written; length 3. -/
def aluTwoRegister (o : AluOp) (a b : Byte) (s : State) : Host.Outcome State Fault Refusal :=
  settle s do
    let i ← regIndex a
    let j ← regIndex b
    let r ← alu o.select (s.reg i) (s.reg j)
    pure ((writeAluResult s i r).advance 3)

/-- The one-register ALU instruction, NOT (41_alu.md R133, R143): length 2; the second ALU input is not used, and the
register is presented on both. -/
def aluOneRegister (o : AluOp) (a : Byte) (s : State) : Host.Outcome State Fault Refusal :=
  settle s do
    let i ← regIndex a
    let r ← alu o.select (s.reg i) (s.reg i)
    pure ((writeAluResult s i r).advance 2)

/-- ADD A,B (41_alu.md R135). -/
def execAdd (a b : Byte) (s : State) : Host.Outcome State Fault Refusal := aluTwoRegister .add a b s

/-- SUB A,B (41_alu.md R136). -/
def execSub (a b : Byte) (s : State) : Host.Outcome State Fault Refusal := aluTwoRegister .sub a b s

/-- MUL A,B (41_alu.md R137). -/
def execMul (a b : Byte) (s : State) : Host.Outcome State Fault Refusal := aluTwoRegister .mul a b s

/-- DIV A,B (41_alu.md R138). -/
def execDiv (a b : Byte) (s : State) : Host.Outcome State Fault Refusal := aluTwoRegister .div a b s

/-- MOD A,B (41_alu.md R139). -/
def execMod (a b : Byte) (s : State) : Host.Outcome State Fault Refusal := aluTwoRegister .mod a b s

/-- CMP A,B (41_alu.md R146). -/
def execCmp (a b : Byte) (s : State) : Host.Outcome State Fault Refusal := aluTwoRegister .cmp a b s

/-- AND A,B (41_alu.md R140). -/
def execAnd (a b : Byte) (s : State) : Host.Outcome State Fault Refusal := aluTwoRegister .and a b s

/-- OR A,B (41_alu.md R141). -/
def execOr (a b : Byte) (s : State) : Host.Outcome State Fault Refusal := aluTwoRegister .or a b s

/-- XOR A,B (41_alu.md R142). -/
def execXor (a b : Byte) (s : State) : Host.Outcome State Fault Refusal := aluTwoRegister .xor a b s

/-- SHL A,B (41_alu.md R144): the count is the whole 8-bit value. -/
def execShl (a b : Byte) (s : State) : Host.Outcome State Fault Refusal := aluTwoRegister .shl a b s

/-- SHR A,B (41_alu.md R145): logical, the count is the whole 8-bit value. -/
def execShr (a b : Byte) (s : State) : Host.Outcome State Fault Refusal := aluTwoRegister .shr a b s

/-- NOT A (41_alu.md R143). -/
def execNot (a : Byte) (s : State) : Host.Outcome State Fault Refusal := aluOneRegister .not a s

end Sys2Proof.Machine
end

