-- ==== Sys2Proof/Machine/Control.lean ====
section
/-! DEFINITION. The meanings of CALL, RET, JEQ and JNE (44_control_transfer.md R180 to R183). -/

namespace Sys2Proof.Machine

/-- CALL A (44_control_transfer.md R180): the return address is pushed, then the target register is read, so CALL R7
jumps to the new stack pointer (decision D18, log 11). -/
def execCall (a : Byte) (s : State) : Host.Outcome State Fault Refusal :=
  settle s do
    let i ← regIndex a
    let r ← returnByte s
    let t ← pushByte s r
    pure (t.setPc (zextPc (t.reg i)))

/-- RET (44_control_transfer.md R181). -/
def execRet (s : State) : Host.Outcome State Fault Refusal :=
  settle s do
    let v ← memRead s (popAddr s)
    let sp ← incrementSp s.sp
    pure ((s.setReg Config.spIndex sp).setPc (zextPc v))

/-- A conditional jump: the index is checked whether or not the jump is taken; taken, `pc` is the register's value;
untaken, `pc` advances by 2 (44_control_transfer.md R182, R183, decision D22). -/
def conditionalJump (taken : Bool) (a : Byte) (s : State) : Host.Outcome State Fault Refusal :=
  settle s do
    let i ← regIndex a
    pure (if taken then s.setPc (zextPc (s.reg i)) else s.advance 2)

/-- JEQ A (44_control_transfer.md R182). -/
def execJeq (a : Byte) (s : State) : Host.Outcome State Fault Refusal := conditionalJump (flagIsEqual s.fl) a s

/-- JNE A (44_control_transfer.md R183). -/
def execJne (a : Byte) (s : State) : Host.Outcome State Fault Refusal := conditionalJump (!flagIsEqual s.fl) a s

end Sys2Proof.Machine
end

