-- ==== Sys2Proof/Machine/LoadPrintHalt.lean ====
section
/-! DEFINITION. The meanings of HLT, LDI and PRN (42_load_print_halt.md R160 to R162). -/

namespace Sys2Proof.Machine

/-- HLT (42_load_print_halt.md R160): HALTED, and `pc` advances by 1 (40_dispatch.md R117, decision D16). -/
def execHlt (s : State) : Host.Outcome State Fault Refusal :=
  .next { s.advance 1 with run := .halted }

/-- LDI A,imm (42_load_print_halt.md R161). -/
def execLdi (a imm : Byte) (s : State) : Host.Outcome State Fault Refusal :=
  settle s do
    let i ← regIndex a
    pure ((s.setReg i imm).advance 3)

/-- PRN A (42_load_print_halt.md R162). -/
def execPrn (a : Byte) (s : State) : Host.Outcome State Fault Refusal :=
  settle s do
    let i ← regIndex a
    pure ((s.emit (s.reg i)).advance 2)

end Sys2Proof.Machine
end

