-- ==== Sys2Proof/Machine/Stack.lean ====
section
/-! DEFINITION. The meanings of PUSH and POP (43_stack.md R170, R171). -/

namespace Sys2Proof.Machine

/-- PUSH A (43_stack.md R170). -/
def execPush (a : Byte) (s : State) : Host.Outcome State Fault Refusal :=
  settle s do
    let i ← regIndex a
    let t ← pushByte s (pushOperand s i)
    pure (t.advance 2)

/-- POP A (43_stack.md R171): the register is written, then the stack pointer is incremented, so POP R7 ends with the
popped value plus 1 (decision D18; DEDUCED by the spec from its source's word order, log 11). -/
def execPop (a : Byte) (s : State) : Host.Outcome State Fault Refusal :=
  settle s do
    let i ← regIndex a
    let v ← memRead s (popAddr s)
    let t := s.setReg i v
    let sp ← incrementSp t.sp
    pure ((t.setReg Config.spIndex sp).advance 2)

end Sys2Proof.Machine
end

