-- ==== Sys2Proof/Machine/Fetch.lean ====
section
/-! DEFINITION. Fetch, decode and operand read of one step (40_dispatch.md R110 to R113), and placing an instruction
where the next step fetches it. -/

namespace Sys2Proof.Machine

/-- The instruction at `pc`, read byte by byte in the order of 40_dispatch.md R110: the opcode through MemRead (R111),
its operation, or IllegalInstruction with no operand read (R112), then as many operand bytes as the operation has, from
`p + 1` and `p + 2` through MemRead, the sums not reduced (R113). -/
def fetchWith (c : Config) (s : State) : Except FaultKind Instr := do
  let p : Int := s.pc.toNat
  let op ← memRead s p
  match c.opOf op with
  | none => .error .illegalInstruction
  | some o =>
    match o.format.operandCount with
    | 0 => pure (o.assemble 0 0)
    | 1 => do
      let a ← memRead s (p + 1)
      pure (o.assemble a 0)
    | _ => do
      let a ← memRead s (p + 1)
      let b ← memRead s (p + 2)
      pure (o.assemble a b)

/-- The bytes of memory from `pc` on that an instruction could occupy: at most three, fewer at the end of memory. -/
def fetchWindow (s : State) : List Byte :=
  (List.range 3).filterMap fun k =>
    if s.pc.toNat + k < Config.memSize then some (s.mem.get (s.pc.toNat + k)) else none

/-- Store bytes in consecutive cells from an address on. -/
def Memory.putBytes (m : Memory) (a : Nat) : List Byte → Memory
  | [] => m
  | v :: rest => Memory.putBytes (m.put a v) (a + 1) rest

/-- Where `withFetchWord` places an instruction: at `pc`, or at address 0 when fewer than three cells lie from `pc` on
(log 13). -/
def fetchPlace (s : State) : Pc := if s.pc.toNat + 3 ≤ Config.memSize then s.pc else Config.pcReset

end Sys2Proof.Machine
end

