-- ==== Sys2Proof/Machine/Step.lean ====
section
/-! DEFINITION. One step of the machine (40_dispatch.md R110, R119). -/

namespace Sys2Proof.Machine

/-- One step for any values of the parameters. RUNNING: fetch, then execute; a fetch that raises enters the fault
(40_dispatch.md R110). HALTED has no step (R119; log 2). FAULTED has no step; its record is surfaced (60_exceptions.md
R196, R213; log 1). -/
def stepWith (c : Config) (s : State) : Host.Outcome State Fault Refusal :=
  match s.run with
  | .running =>
    match fetchWith c s with
    | .ok i => exec i s
    | .error k => .next (s.raise k)
  | .halted => .refused .halted
  | .faulted k p => .fault (.surfaced k p)

/-- One step of this machine. -/
def step (s : State) : Host.Outcome State Fault Refusal := stepWith Config.spec s

/-- `s` with an instruction placed where the next step fetches it, and the machine RUNNING (log 13). -/
def State.withFetchWord (s : State) (nbits w : Nat) : State :=
  { s with
    pc := fetchPlace s
    run := .running
    mem := s.mem.putBytes (fetchPlace s).toNat (tableWordBytes nbits w) }

end Sys2Proof.Machine
end

