-- ==== Sys2Proof/Machine/Load.lean ====
section
/-! DEFINITION. The loader port and the launch sequence (20_memory.md R66 to R68, 70_reset_and_hazards.md R230 to R232),
and the loader's text format (30_encoding.md R95). -/

namespace Sys2Proof.Machine

/-- Write bytes to consecutive addresses, in order, through the memory's write contract. -/
def loadFrom (addr : Nat) (bytes : List Byte) (s : State) : Except FaultKind State :=
  match bytes with
  | [] => .ok s
  | v :: rest => do
    let t ← memWrite s addr v
    loadFrom (addr + 1) rest t

/-- The load (20_memory.md R66): MemWrite(i, 1, b[i]) for i = 0, 1, ... in that order. Byte 256 raises
AddressOutOfRange and the run does not start (R67). -/
def load (bytes : List Byte) (s : State) : Except FaultKind State := loadFrom Config.loadBase bytes s

/-- Reset, from any state: nothing is kept (70_reset_and_hazards.md R230, 40_dispatch.md R123). -/
def hostReset (_ : State) : State := State.reset

/-- Reset, then load: the launch state of a program image (70_reset_and_hazards.md R231, R232). -/
def launch (bytes : List Byte) : Except FaultKind State := load bytes State.reset

/-- Launch for any values of the parameters. -/
def launchWith (c : Config) (bytes : List Byte) : Except FaultKind State := load bytes (State.resetWith c)

/-- The characters of a line before its comment (30_encoding.md R95). -/
def stripComment (line : List Char) : List Char := line.takeWhile (· ≠ '#')

/-- Spaces, tabs and carriage returns carry no digit. DESIGN CHOICE, safe (log 15). -/
def isBlankChar (ch : Char) : Bool := ch == ' ' || ch == '\t' || ch == '\r'

/-- A line without its comment and without blanks at either end. -/
def lineBody (line : List Char) : List Char :=
  (((stripComment line).dropWhile isBlankChar).reverse.dropWhile isBlankChar).reverse

/-- The value of a base-2 literal, most significant digit first. -/
def binaryValue : List Char → Nat → Option Nat
  | [], acc => some acc
  | ch :: rest, acc =>
    if ch = '0' then binaryValue rest (2 * acc)
    else if ch = '1' then binaryValue rest (2 * acc + 1)
    else none

/-- One line's byte: exactly eight binary digits, no marker before them (30_encoding.md R95: what the spec's examples
write; another literal is given no meaning. DESIGN CHOICE, safe, log 15). -/
def lineByte (body : List Char) : Option Byte :=
  if body.length = 8 then (binaryValue body 0).map (BitVec.ofNat 8) else none

/-- Cut a text into lines. -/
def splitLines : List Char → List (List Char)
  | [] => [[]]
  | ch :: rest =>
    match splitLines rest with
    | [] => [[ch]]
    | l :: ls => if ch = '\n' then [] :: l :: ls else (ch :: l) :: ls

/-- The bytes of a program source: one base-2 byte a line, comments stripped, blank lines skipped (30_encoding.md R95);
none for a text that is not one (93_implementation_defined.md U9). -/
def parseSource (text : List Char) : Option (List Byte) :=
  (((splitLines text).map lineBody).filter fun b => !b.isEmpty).mapM lineByte

end Sys2Proof.Machine
end

