-- ==== Sys2Proof/Machine/Ports.lean ====
section
/-! DEFINITION. The output ports (10_state.md R40, 60_exceptions.md R191, R196) and the debug port (20_memory.md R70,
R71), as views of the state: none of them changes it. -/

namespace Sys2Proof.Machine

/-- The fault record a host reads: kind and pc, none while no fault has occurred (60_exceptions.md R196). -/
def faultRecord (s : State) : Option (FaultKind × Pc) :=
  match s.run with
  | .faulted k p => some (k, p)
  | .running | .halted => none

/-- The static output ports of 10_state.md R40. `faultPc` is absent while `faultValid` is false: the spec gives the
port no value then (DESIGN CHOICE, safe, log 16). -/
structure OutputPorts where
  halted : Bool
  faultValid : Bool
  faultKind : BitVec 3
  faultPc : Option Pc
deriving DecidableEq, Repr

/-- The output ports of a state; fault kind code 0 means "no fault" (60_exceptions.md R191). -/
def outputPorts (s : State) : OutputPorts where
  halted := s.run == .halted
  faultValid := (faultRecord s).isSome
  faultKind := ((faultRecord s).map fun r => Config.spec.faultCode r.1).getD 0
  faultPc := (faultRecord s).map (·.2)

/-- `out_valid` and `out_data` over one step from `s` to `t`: the values sent in it, none or one
(10_state.md R37, R40). -/
def emitted (s t : State) : List Byte := t.out.drop s.out.length

/-- The debug snapshot (20_memory.md R70): pc, the bytes at pc, pc + 1 and pc + 2, and the eight registers. A byte whose
address is above 255 is absent (R71). Neither `fl`, `run` nor `out` is shown. -/
structure Snapshot where
  pc : Pc
  mem0 : Option Byte
  mem1 : Option Byte
  mem2 : Option Byte
  regs : Vector Byte 8
deriving DecidableEq, Repr

/-- The byte the debug port shows at an address: it does not go through MemRead and never faults (20_memory.md R71). -/
def debugByte (s : State) (a : Nat) : Option Byte := if a < Config.memSize then some (s.mem.get a) else none

/-- The snapshot of a state, between steps. -/
def snapshot (s : State) : Snapshot where
  pc := s.pc
  mem0 := debugByte s s.pc.toNat
  mem1 := debugByte s (s.pc.toNat + 1)
  mem2 := debugByte s (s.pc.toNat + 2)
  regs := s.regs

end Sys2Proof.Machine
end

