-- ==== Sys2Proof/Safety.lean ====
section
/-! DEFINITION. The terms the statements use: frames, fault entry, the shapes of the instruction rules, the invariant
of the machine, the causes of a fault, and when two states differ only in an unobservable part of the flag. -/

namespace Sys2Proof.Machine

/-- The model's read of one byte, by address. -/
def State.byteAt (s : State) (a : Nat) : Byte := s.mem.get a

/-- Every byte of memory reads in `t` as in `s`. -/
def MemorySame (s t : State) : Prop := ∀ a : Nat, t.byteAt a = s.byteAt a

/-- Every byte of memory other than the one at `c` reads in `t` as in `s`. -/
def MemorySameBut (c : Nat) (s t : State) : Prop := ∀ a : Nat, a ≠ c → t.byteAt a = s.byteAt a

/-- Every register outside the list reads in `t` as in `s`. -/
def RegsSameBut (written : List RegIdx) (s t : State) : Prop := ∀ i : RegIdx, i ∉ written → t.reg i = s.reg i

/-- The operand byte that names register `i`. -/
def regByte (i : RegIdx) : Byte := BitVec.ofNat 8 i.val

/-- An operand byte that names no register: 8 to 255 (10_state.md R24). -/
abbrev BadReg (b : Byte) : Prop := 7 < b.toNat

/-- An instruction of `n` bytes at `pc` lies inside memory (40_dispatch.md R113, R120). -/
abbrev State.Fits (s : State) (n : Nat) : Prop := s.pc.toNat + n ≤ 256

/-- Fault entry of kind `k` from `s`: FAULTED(k, p) with p the `pc` of `s`, and nothing else changed (60_exceptions.md
R196, R197). -/
def FaultEntered (k : FaultKind) (s t : State) : Prop :=
  t.run = .faulted k s.pc ∧ t.pc = s.pc ∧ t.fl = s.fl ∧ t.out = s.out ∧ RegsSameBut [] s t ∧ MemorySame s t

/-- Executing `i` in `s` enters the fault `k`, with none of the instruction's effect. -/
def Raises (i : Instr) (s : State) (k : FaultKind) : Prop := ∃ t, exec i s = .next t ∧ FaultEntered k s t

/-- The step from `s` enters the fault `k`. -/
def StepRaises (s : State) (k : FaultKind) : Prop := ∃ t, step s = .next t ∧ FaultEntered k s t

/-- What every instruction that neither sets `pc` nor touches memory, flag or output leaves: `pc` past its `n` bytes,
the registers outside `written`, memory, `fl`, `run` and `out` as they were. -/
def PlainFrame (written : List RegIdx) (n : Nat) (s t : State) : Prop :=
  RegsSameBut written s t ∧ t.pc.toNat = s.pc.toNat + n ∧ t.fl = s.fl ∧ t.run = s.run ∧ t.out = s.out ∧ MemorySame s t

/-- The shape of the rules of the two-register instructions that write a register and have no divisor: the encoding
(`opcode`, A, B); in every state where the three bytes lie inside memory, and for every pair of registers (equal or
not, R7 included), the instruction completes, the first register holds `value` of the two old values, and nothing else
changes but `pc`; a bad index faults (41_alu.md R133). -/
def TwoRegisterRule (ins : Byte → Byte → Instr) (opcode : Byte) (value : Nat → Nat → Nat) : Prop :=
  (∀ a b : Byte, encode (ins a b) = [opcode, a, b]) ∧
  (∀ (a b : RegIdx) (s : State), s.Fits 3 → ∃ t, exec (ins (regByte a) (regByte b)) s = .next t ∧
    (t.reg a).toNat = value (s.reg a).toNat (s.reg b).toNat ∧ PlainFrame [a] 3 s t) ∧
  (∀ (a b : Byte) (s : State), BadReg a ∨ BadReg b → Raises (ins a b) s .addressOutOfRange)

/-- The shape of the rules of DIV and MOD: as `TwoRegisterRule` when the divisor register is not 0; DivisionByZero when
it is 0; a bad index faults first (41_alu.md R138, R139). -/
def DivisorRule (ins : Byte → Byte → Instr) (opcode : Byte) (value : Nat → Nat → Nat) : Prop :=
  (∀ a b : Byte, encode (ins a b) = [opcode, a, b]) ∧
  (∀ (a b : RegIdx) (s : State), s.Fits 3 → s.reg b ≠ 0 → ∃ t, exec (ins (regByte a) (regByte b)) s = .next t ∧
    (t.reg a).toNat = value (s.reg a).toNat (s.reg b).toNat ∧ PlainFrame [a] 3 s t) ∧
  (∀ (a b : RegIdx) (s : State), s.reg b = 0 → Raises (ins (regByte a) (regByte b)) s .divisionByZero) ∧
  (∀ (a b : Byte) (s : State), BadReg a ∨ BadReg b → Raises (ins a b) s .addressOutOfRange)

/-- What JEQ and JNE leave unchanged: everything but `pc` (44_control_transfer.md R182, R183). -/
def JumpFrame (s t : State) : Prop :=
  RegsSameBut [] s t ∧ t.fl = s.fl ∧ t.run = s.run ∧ t.out = s.out ∧ MemorySame s t

/-- The shape of the conditional jumps' rules: the encoding; taken when `taken` holds of the flag, to the register's
value; untaken, past the two bytes; a bad index faults, taken or not. -/
def JumpRule (ins : Byte → Instr) (opcode : Byte) (taken : Flag → Prop) : Prop :=
  (∀ a : Byte, encode (ins a) = [opcode, a]) ∧
  (∀ (a : RegIdx) (s : State), taken s.fl →
    ∃ t, exec (ins (regByte a)) s = .next t ∧ t.pc.toNat = (s.reg a).toNat ∧ JumpFrame s t) ∧
  (∀ (a : RegIdx) (s : State), ¬ taken s.fl → s.Fits 2 →
    ∃ t, exec (ins (regByte a)) s = .next t ∧ t.pc.toNat = s.pc.toNat + 2 ∧ JumpFrame s t) ∧
  (∀ (a : Byte) (s : State), BadReg a → Raises (ins a) s .addressOutOfRange)

/-- The registers each instruction may write, by its operand bytes (the table of 10_state.md R25). -/
def mayWriteReg (i : Instr) (r : RegIdx) : Bool :=
  match i with
  | .ldi a _ | .not a => a == regByte r
  | .add a _ | .sub a _ | .mul a _ | .div a _ | .mod a _ | .and a _ | .or a _ | .xor a _ | .shl a _ | .shr a _ =>
    a == regByte r
  | .pop a => a == regByte r || r == Config.spIndex
  | .push _ | .call _ | .ret => r == Config.spIndex
  | .hlt | .prn _ | .jeq _ | .jne _ | .cmp _ _ => false

/-- The invariant of the machine: memory is canonical and inside 0 to 255 (log 7); `pc` is at most 256 (40_dispatch.md
R120); a recorded fault names the `pc` the machine still holds (60_exceptions.md R198); and UnsupportedAluOperation is
never recorded (60_exceptions.md R194). -/
structure State.Inv (s : State) : Prop where
  memory : s.mem.wf = true
  pcRange : s.pc.toNat ≤ 256
  faultAtPc : ∀ k p, s.run = .faulted k p → p = s.pc
  supportedAlu : ∀ p, s.run ≠ .faulted .unsupportedAluOperation p

/-- The fault of the instruction `o` once its bytes are fetched and its register bytes are good: the divisor, the stack
pointer or the return address (60_exceptions.md R192, R195, R200 level 5). `a` and `b` are its operand bytes. For POP R7
it is the popped byte that is incremented (43_stack.md R171, decision D18, log 11). -/
def operandFault (s : State) (o : Op) (a b : Byte) : Option FaultKind :=
  match o with
  | .div | .mod => if ∃ r : RegIdx, b = regByte r ∧ s.reg r = 0 then some .divisionByZero else none
  | .push => if s.sp = 0 then some .addressOutOfRange else none
  | .pop =>
    if (if a = regByte Config.spIndex then s.byteAt s.sp.toNat else s.sp) = 255 then some .addressOutOfRange else none
  | .call => if s.sp = 0 ∨ s.pc = 254 then some .addressOutOfRange else none
  | .ret => if s.sp = 255 then some .addressOutOfRange else none
  | _ => none

/-- The fault a RUNNING state's step raises, if any, by the causes of 60_exceptions.md R192, R193 and R195 in the order
of R200: opcode fetch, decode, operand fetch, register index, then divisor, stack pointer or return address. -/
def State.faultCause (s : State) : Option FaultKind :=
  if 255 < s.pc.toNat then some .addressOutOfRange
  else
    match Config.spec.opOf (s.byteAt s.pc.toNat) with
    | none => some .illegalInstruction
    | some o =>
      let a := s.byteAt (s.pc.toNat + 1)
      let b := s.byteAt (s.pc.toNat + 2)
      if 256 < s.pc.toNat + o.length then some .addressOutOfRange
      else if ∃ r ∈ (o.assemble a b).regOperands, BadReg r then some .addressOutOfRange
      else operandFault s o a b

/-- Two states that differ at most in `fl`, and there agree on whether it is EQUAL (10_state.md R35). -/
def FlagTwin (s t : State) : Prop := t = { s with fl := t.fl } ∧ (s.fl = .equal ↔ t.fl = .equal)

/-- Two outcomes that are related states, or the same fault, or the same refusal. -/
def OutcomesRelated (R : State → State → Prop) (o o' : Host.Outcome State Fault Refusal) : Prop :=
  match o, o' with
  | .next s, .next t => R s t
  | .fault f, .fault f' => f = f'
  | .refused r, .refused r' => r = r'
  | _, _ => False

end Sys2Proof.Machine
end

