-- ==== Sys2Proof/Certificates/Slice0/Obligations.lean ====
section
/-! DEFINITION. The statements for the provers. Every statement cites the rules of spec/ it formalises; where the spec
marks a clause as its own decision D<n> or inference, the docstring names it. -/

open Sys2Proof Sys2Proof.Machine

/-! ## Encoding -/

/-- Words written out bit by bit from 30_encoding.md R81, R84 and R96 (the spec derives them) decode to the
instructions they stand for; and `PRN R8` raises. The byte values are the spec's decision D8 (log 3). -/
def Obligations.SpecExampleWordsDecode : Prop :=
  decode [0b00000001] = .ok (.hlt, []) ∧
  decode [0b00010001] = .ok (.ret, []) ∧
  decode [0b01000101, 0b00000011] = .ok (.push 3, []) ∧
  decode [0b01101001, 0b00000101] = .ok (.not 5, []) ∧
  decode [0b01010110, 0b00000010] = .ok (.jne 2, []) ∧
  decode [0b10100000, 0b00000000, 0b00000001] = .ok (.add 0 1, []) ∧
  decode [0b10100111, 0b00000110, 0b00000111] = .ok (.cmp 6 7, []) ∧
  decode [0b10000010, 0b00000111, 0b11111111] = .ok (.ldi 7 255, []) ∧
  decode [0b01000111, 0b00001000] = .ok (.prn 8, []) ∧
  ∀ s, Raises (.prn 8) s .addressOutOfRange

/-- Decoding the encoding of an instruction, whatever bytes follow, gives it back and leaves those bytes, for EVERY
opcode map with distinct bytes (30_encoding.md R80, R81, R85), and this machine's map has distinct bytes. All operand
bytes are covered, register bytes of 8 or more included. -/
def Obligations.DecodeInvertsEncode : Prop :=
  (∀ c : Config, c.OpcodesDistinct → ∀ (i : Instr) (rest : List Byte),
    decodeWith c (encodeWith c i ++ rest) = .ok (i, rest)) ∧
  Config.spec.OpcodesDistinct

/-- The other direction: whatever decodes is the encoding of the instruction it decodes to, followed by the bytes left
(30_encoding.md R83, R90), for every opcode map. -/
def Obligations.EncodeInvertsDecode : Prop :=
  ∀ (c : Config) (bytes : List Byte) (i : Instr) (rest : List Byte),
    decodeWith c bytes = .ok (i, rest) → encodeWith c i ++ rest = bytes

/-- 30_encoding.md R88, 40_dispatch.md R112, 60_exceptions.md R193: a byte decodes to a row exactly when it is the row's
opcode byte; the bytes that are no opcode are exactly those outside the table, 235 of them, the bytes of the absent LS-8 instructions among them; fetched as an opcode, such a byte
raises IllegalInstruction with no operand read (at address 255 too), and the debug port still shows it. The byte values
are the spec's decision D8 (log 3). -/
def Obligations.IllegalOpcodesRaise : Prop :=
  (∀ (b : Byte) (o : Op), Config.spec.opOf b = some o ↔ b = opcodeByte o) ∧
  (∀ b : Byte, Config.spec.opOf b = none ↔
    b ∉ [0x01, 0x82, 0x47, 0x45, 0x46, 0x50, 0x11, 0x55, 0x56, 0xA0, 0xA1, 0xA2, 0xA3, 0xA4, 0xA7, 0xA8, 0xAA, 0xAB,
      0xAC, 0xAD, 0x69]) ∧
  ((List.range 256).filter fun n => (Config.spec.opOf (BitVec.ofNat 8 n)).isNone).length = 235 ∧
  (∀ b ∈ [(0x00 : Byte), 0x54, 0x83, 0x84, 0x65, 0x66, 0x48, 0x57, 0x58, 0x59, 0x5A, 0x52, 0x13],
    Config.spec.opOf b = none) ∧
  (∀ s : State, s.run = .running → s.pc.toNat ≤ 255 → Config.spec.opOf (s.byteAt s.pc.toNat) = none →
    ∃ t, step s = .next t ∧ FaultEntered .illegalInstruction s t ∧ (snapshot t).mem0 = some (s.byteAt s.pc.toNat))

/-! ## The step -/

/-- When the bytes at `pc` decode to an instruction, the step of a RUNNING machine is that instruction's execution and
nothing else: the meanings move `pc` themselves (40_dispatch.md R110, R114). Under every opcode map. -/
def Obligations.StepRunsDecodedInstruction : Prop :=
  (∀ (c : Config) (s : State) (i : Instr) (rest : List Byte), s.run = .running →
    decodeWith c (fetchWindow s) = .ok (i, rest) → stepWith c s = exec i s) ∧
  (∀ (s : State) (i : Instr) (rest : List Byte), s.run = .running →
    decode (fetchWindow s) = .ok (i, rest) → step s = exec i s)

/-- 40_dispatch.md R111 and R113 (decision D10): a fetch past the end of memory raises AddressOutOfRange with the
instruction's own `pc`; a 2-byte instruction at 255 and a 3-byte instruction at 254 or 255 raise it, nothing wraps; and
where the bytes lie inside memory, the operands of what is executed are those at `pc` + 1 and `pc` + 2. -/
def Obligations.FetchPastMemoryRaises : Prop :=
  (∀ s : State, s.run = .running → s.pc.toNat = 256 → StepRaises s .addressOutOfRange) ∧
  (∀ (s : State) (o : Op), s.run = .running → s.pc.toNat ≤ 255 →
    Config.spec.opOf (s.byteAt s.pc.toNat) = some o →
    (o.length = 2 ∧ s.pc.toNat = 255 ∨ o.length = 3 ∧ (s.pc.toNat = 254 ∨ s.pc.toNat = 255)) →
    StepRaises s .addressOutOfRange) ∧
  (∀ (s : State) (o : Op), s.run = .running → Config.spec.opOf (s.byteAt s.pc.toNat) = some o → s.Fits o.length →
    step s = exec (o.assemble (s.byteAt (s.pc.toNat + 1)) (s.byteAt (s.pc.toNat + 2))) s)

/-- 10_state.md R33 and 40_dispatch.md R119 (decision D15): a step exists only in RUNNING, and goes to RUNNING, to
HALTED by HLT alone, or to FAULTED at its own `pc` (at most 256); HALTED and FAULTED have no step, however many are asked for; only a
reset leaves them. -/
def Obligations.RunStateTransitions : Prop :=
  (∀ s t : State, step s = .next t → s.run = .running ∧
    (t.run = .running ∨ (t.run = .halted ∧ fetchWith Config.spec s = .ok .hlt) ∨ ∃ k, t.run = .faulted k s.pc)) ∧
  (∀ (s t : State) (k : FaultKind) (p : Pc), s.pc.toNat ≤ 256 → step s = .next t → t.run = .faulted k p →
    p.toNat ≤ 256) ∧
  (∀ s : State, s.run ≠ .running → ∀ (n : Nat) (t : State), Sys2Proof.core.run (n + 1) s ≠ .next t) ∧
  (∀ s : State, (hostReset s).run = .running)

/-- A RUNNING machine always takes its next step: it answers a next state, whatever its memory, registers and `pc` hold
(70_reset_and_hazards.md R237, 60_exceptions.md R213; the spec derives it). A fault is a next state here (log 1). -/
def Obligations.RunningAlwaysSteps : Prop :=
  ∀ (c : Config) (s : State), s.run = .running → ∃ t, stepWith c s = .next t

/-- 40_dispatch.md R115 and R116: a step that completes advances `pc` by the instruction's length, with no wrap and to
at most 256, unless the instruction set it; CALL, RET and the taken jumps leave exactly the target; untaken jumps
advance. CALL's target is read after its push (44_control_transfer.md, rule of CALL), so CALL R7 leaves the NEW stack
pointer: the spec's own inference "from the order of the source's sentence", decision D18 (log 11). -/
def Obligations.PcSequencing : Prop :=
  ∀ (s t : State) (i : Instr), s.run = .running → fetchWith Config.spec s = .ok i → step s = .next t →
    (t.run = .running ∨ t.run = .halted) →
    (i.op.category ≠ .controlTransfer → t.pc.toNat = s.pc.toNat + i.op.length ∧ t.pc.toNat ≤ 256) ∧
    (∀ a, i = .jeq a → s.fl ≠ .equal → t.pc.toNat = s.pc.toNat + 2) ∧
    (∀ a, i = .jne a → s.fl = .equal → t.pc.toNat = s.pc.toNat + 2) ∧
    (∀ r : RegIdx, i = .jeq (regByte r) → s.fl = .equal → t.pc.toNat = (s.reg r).toNat) ∧
    (∀ r : RegIdx, i = .jne (regByte r) → s.fl ≠ .equal → t.pc.toNat = (s.reg r).toNat) ∧
    (∀ r : RegIdx, i = .call (regByte r) → t.pc.toNat = (t.reg r).toNat) ∧
    (i = .ret → t.pc.toNat = (s.byteAt s.sp.toNat).toNat)

/-! ## ALU instructions -/

/-- ADD (41_alu.md R135, decision D1): the sum modulo 256. -/
def Obligations.AddWritesSumModulo256 : Prop := TwoRegisterRule .add 0xA0 fun u v => (u + v) % 256

/-- SUB (41_alu.md R136, decision D1): the difference modulo 256; and ADD then SUB of the same two different registers
restores the first, for all values. -/
def Obligations.SubWritesDifferenceModulo256 : Prop :=
  TwoRegisterRule .sub 0xA1 (fun u v => (u + 256 - v) % 256) ∧
  (∀ (a b : RegIdx) (s : State), a ≠ b → ∃ t u, exec (.add (regByte a) (regByte b)) s = .next t ∧
    exec (.sub (regByte a) (regByte b)) t = .next u ∧ ∀ r, u.reg r = s.reg r)

/-- MUL (41_alu.md R137, decision D1): the low 8 bits of the product. -/
def Obligations.MulWritesProductModulo256 : Prop := TwoRegisterRule .mul 0xA2 fun u v => (u * v) % 256

/-- DIV (41_alu.md R138, decision D2): the floor of the quotient; a zero divisor raises DivisionByZero, after the index
check; floor and truncation agree on every pair. -/
def Obligations.DivWritesFloorQuotient : Prop :=
  DivisorRule .div 0xA3 (fun u v => u / v) ∧
  ∀ u v : Byte, v ≠ 0 → quotient .floor u v = quotient .truncate u v

/-- MOD (41_alu.md R139, decision D3): the remainder, below the divisor; a zero divisor raises DivisionByZero; and the
dividend is the divisor times DIV's result plus MOD's. -/
def Obligations.ModWritesRemainder : Prop :=
  DivisorRule .mod 0xA4 (fun u v => u % v) ∧
  ∀ (a b : RegIdx) (s : State), s.reg b ≠ 0 → ∃ t u, exec (.div (regByte a) (regByte b)) s = .next t ∧
    exec (.mod (regByte a) (regByte b)) s = .next u ∧
    (s.reg a).toNat = (s.reg b).toNat * (t.reg a).toNat + (u.reg a).toNat

/-- AND (41_alu.md R140): bit i of the result is 1 iff bit i of both inputs is. -/
def Obligations.AndWritesBitwiseAnd : Prop := TwoRegisterRule .and 0xA8 fun u v => u &&& v

/-- OR (41_alu.md R141). -/
def Obligations.OrWritesBitwiseOr : Prop := TwoRegisterRule .or 0xAA fun u v => u ||| v

/-- XOR (41_alu.md R142). -/
def Obligations.XorWritesBitwiseXor : Prop := TwoRegisterRule .xor 0xAB fun u v => u ^^^ v

/-- NOT (41_alu.md R143, decision D1): 255 minus the value, in place, length 2. -/
def Obligations.NotWritesComplement : Prop :=
  (∀ a : Byte, encode (.not a) = [0x69, a]) ∧
  (∀ (a : RegIdx) (s : State), s.Fits 2 → ∃ t, exec (.not (regByte a)) s = .next t ∧
    (t.reg a).toNat = 255 - (s.reg a).toNat ∧ PlainFrame [a] 2 s t) ∧
  (∀ (a : Byte) (s : State), BadReg a → Raises (.not a) s .addressOutOfRange)

/-- SHL (41_alu.md R144, decision D4): multiplication by 2 to the whole 8-bit count, modulo 256; 0 from count 8 on. -/
def Obligations.ShlShiftsByWholeCount : Prop :=
  TwoRegisterRule .shl 0xAC (fun u n => u * 2 ^ n % 256) ∧
  ∀ (a b : RegIdx) (s : State), 8 ≤ (s.reg b).toNat → ∃ t, exec (.shl (regByte a) (regByte b)) s = .next t ∧ t.reg a = 0

/-- SHR (41_alu.md R145, decision D4): floor division by 2 to the whole 8-bit count, a logical shift; 0 from count 8
on. -/
def Obligations.ShrShiftsByWholeCount : Prop :=
  TwoRegisterRule .shr 0xAD (fun u n => u / 2 ^ n) ∧
  ∀ (a b : RegIdx) (s : State), 8 ≤ (s.reg b).toNat → ∃ t, exec (.shr (regByte a) (regByte b)) s = .next t ∧ t.reg a = 0

/-- CMP (41_alu.md R146): the flag becomes exactly one outcome of the unsigned comparison, whatever it was; no register
is written; a bad index faults and leaves the flag. Which way GREATER_THAN points is the spec's decision D5. -/
def Obligations.CmpSetsFlagByUnsignedOrder : Prop :=
  (∀ a b : Byte, encode (.cmp a b) = [0xA7, a, b]) ∧
  (∀ (a b : RegIdx) (s : State), s.Fits 3 → ∃ t, exec (.cmp (regByte a) (regByte b)) s = .next t ∧
    ((s.reg a).toNat = (s.reg b).toNat → t.fl = .equal) ∧
    ((s.reg b).toNat < (s.reg a).toNat → t.fl = .greaterThan) ∧
    ((s.reg a).toNat < (s.reg b).toNat → t.fl = .lessThan) ∧
    RegsSameBut [] s t ∧ t.pc.toNat = s.pc.toNat + 3 ∧ t.run = s.run ∧ t.out = s.out ∧ MemorySame s t) ∧
  (∀ (a b : Byte) (s : State), BadReg a ∨ BadReg b → Raises (.cmp a b) s .addressOutOfRange)

/-- The source's property of CMP and the jumps (41_alu.md R146, 44_control_transfer.md R182, R183): after CMP, JEQ is
taken iff the two registers are equal, JNE iff they are not. -/
def Obligations.CmpThenJumpFollowsEquality : Prop :=
  ∀ (a b r : RegIdx) (s : State), s.Fits 5 → ∃ t u v, exec (.cmp (regByte a) (regByte b)) s = .next t ∧
    exec (.jeq (regByte r)) t = .next u ∧ exec (.jne (regByte r)) t = .next v ∧
    (s.reg a = s.reg b → u.pc.toNat = (s.reg r).toNat ∧ v.pc.toNat = s.pc.toNat + 5) ∧
    (s.reg a ≠ s.reg b → u.pc.toNat = s.pc.toNat + 5 ∧ v.pc.toNat = (s.reg r).toNat)

/-- The ALU block (30_encoding.md R87, 60_exceptions.md R194, decision D17): the twelve select codes, equal to the low
four bits of the opcode byte; the four others, and only they, answer UnsupportedAluOperation whatever the inputs; and no
instruction of the core ever raises it. -/
def Obligations.AluSelectCodes : Prop :=
  (AluOp.select .add = 0b0000 ∧ AluOp.select .sub = 0b0001 ∧ AluOp.select .mul = 0b0010 ∧
    AluOp.select .div = 0b0011 ∧ AluOp.select .mod = 0b0100 ∧ AluOp.select .cmp = 0b0111 ∧
    AluOp.select .and = 0b1000 ∧ AluOp.select .not = 0b1001 ∧ AluOp.select .or = 0b1010 ∧
    AluOp.select .xor = 0b1011 ∧ AluOp.select .shl = 0b1100 ∧ AluOp.select .shr = 0b1101) ∧
  (∀ (o : Op) (p : AluOp), aluOpOf o = some p → p.select = (opcodeByte o).setWidth 4) ∧
  (∀ (sel : BitVec 4) (u v : Byte), alu sel u v = .error .unsupportedAluOperation ↔
    sel ∈ [(0b0101 : BitVec 4), 0b0110, 0b1110, 0b1111]) ∧
  (∀ (i : Instr) (s t : State) (p : Pc), exec i s = .next t → t.run = .faulted .unsupportedAluOperation p →
    s.run = .faulted .unsupportedAluOperation p)

/-! ## HLT, LDI, PRN -/

/-- HLT (42_load_print_halt.md R160, decision D16): HALTED, `pc` advanced by 1 (to 256 at address 255), everything else
unchanged; nothing else reaches HALTED; and there is no step after it. -/
def Obligations.HltHaltsAndAdvances : Prop :=
  encode .hlt = [0x01] ∧
  (∀ s : State, s.Fits 1 → ∃ t, exec .hlt s = .next t ∧ t.run = .halted ∧ (outputPorts t).halted = true ∧
    t.pc.toNat = s.pc.toNat + 1 ∧ RegsSameBut [] s t ∧ t.fl = s.fl ∧ t.out = s.out ∧ MemorySame s t ∧
    ∀ u, step t ≠ .next u) ∧
  (∀ (i : Instr) (s t : State), exec i s = .next t → t.run = .halted → s.run = .halted ∨ i = .hlt)

/-- LDI (42_load_print_halt.md R161): the register holds the immediate, R7 included, every value as it is; a bad index
faults; an LDI at 254 or 255 faults on its fetch. -/
def Obligations.LdiWritesImmediate : Prop :=
  (∀ a imm : Byte, encode (.ldi a imm) = [0x82, a, imm]) ∧
  (∀ (a : RegIdx) (imm : Byte) (s : State), s.Fits 3 → ∃ t, exec (.ldi (regByte a) imm) s = .next t ∧
    t.reg a = imm ∧ PlainFrame [a] 3 s t) ∧
  (∀ (a imm : Byte) (s : State), BadReg a → Raises (.ldi a imm) s .addressOutOfRange) ∧
  (∀ s : State, s.run = .running → s.byteAt s.pc.toNat = 0x82 → (s.pc.toNat = 254 ∨ s.pc.toNat = 255) →
    StepRaises s .addressOutOfRange)

/-- PRN (42_load_print_halt.md R162): one value, the register's, is appended to the output; nothing else changes but
`pc`; a bad index faults and nothing is emitted. -/
def Obligations.PrnEmitsRegister : Prop :=
  (∀ a : Byte, encode (.prn a) = [0x47, a]) ∧
  (∀ (a : RegIdx) (s : State), s.Fits 2 → ∃ t, exec (.prn (regByte a)) s = .next t ∧
    t.out = s.out ++ [s.reg a] ∧ emitted s t = [s.reg a] ∧ RegsSameBut [] s t ∧ t.pc.toNat = s.pc.toNat + 2 ∧
    t.fl = s.fl ∧ t.run = s.run ∧ MemorySame s t) ∧
  (∀ (a : Byte) (s : State), BadReg a → Raises (.prn a) s .addressOutOfRange)

/-! ## The stack -/

/-- PUSH (43_stack.md, rule of PUSH; decisions D11 and D18): the cell at the old stack pointer minus 1 (`pushAddr`)
holds the register, the stack pointer names that cell, no other register and no other cell changes; with the stack
pointer 0, or a bad index, AddressOutOfRange and nothing written. That PUSH R7 stores the NEW stack pointer is the
spec's own inference "from the order of the source's sentence" (log 11). -/
def Obligations.PushStoresBelowStackPointer : Prop :=
  (∀ a : Byte, encode (.push a) = [0x45, a]) ∧
  (∀ (a : RegIdx) (s : State), s.Fits 2 → s.mem.wf = true → s.sp ≠ 0 →
    ∃ t, exec (.push (regByte a)) s = .next t ∧
    (∀ c : Nat, (c : Int) = pushAddr s →
      t.sp.toNat = c ∧ t.byteAt c = (if a = Config.spIndex then BitVec.ofNat 8 c else s.reg a) ∧
      MemorySameBut c s t) ∧
    t.sp.toNat + 1 = s.sp.toNat ∧ RegsSameBut [Config.spIndex] s t ∧ t.pc.toNat = s.pc.toNat + 2 ∧ t.fl = s.fl ∧
    t.run = s.run ∧ t.out = s.out) ∧
  (∀ (a : RegIdx) (s : State), s.sp = 0 → Raises (.push (regByte a)) s .addressOutOfRange) ∧
  (∀ (a : Byte) (s : State), BadReg a → Raises (.push a) s .addressOutOfRange)

/-- POP (43_stack.md, rule of POP; decisions D11 and D18): the register holds the byte at the stack pointer, the stack
pointer moves up by 1, memory is unchanged (the cell is not cleared); when the stack pointer would be 256, or on a bad
index, AddressOutOfRange and nothing written. That POP R7 ends with the popped value plus 1 is the spec's own inference
"from the order of the source's sentence" (log 11). -/
def Obligations.PopLoadsAtStackPointer : Prop :=
  (∀ a : Byte, encode (.pop a) = [0x46, a]) ∧
  (∀ (a : RegIdx) (s : State), s.Fits 2 → a ≠ Config.spIndex → s.sp ≠ 255 →
    ∃ t, exec (.pop (regByte a)) s = .next t ∧ t.reg a = s.byteAt s.sp.toNat ∧ t.sp.toNat = s.sp.toNat + 1 ∧
    PlainFrame [a, Config.spIndex] 2 s t) ∧
  (∀ s : State, s.Fits 2 → s.byteAt s.sp.toNat ≠ 255 →
    ∃ t, exec (.pop (regByte Config.spIndex)) s = .next t ∧ t.sp.toNat = (s.byteAt s.sp.toNat).toNat + 1 ∧
    PlainFrame [Config.spIndex] 2 s t) ∧
  (∀ (a : RegIdx) (s : State), a ≠ Config.spIndex → s.sp = 255 → Raises (.pop (regByte a)) s .addressOutOfRange) ∧
  (∀ s : State, s.byteAt s.sp.toNat = 255 → Raises (.pop (regByte Config.spIndex)) s .addressOutOfRange) ∧
  (∀ (a : Byte) (s : State), BadReg a → Raises (.pop a) s .addressOutOfRange)

/-- The round-trip law (43_stack.md R172, derived by the spec): PUSH then POP of the same register restores every
register, whatever is written to that register in between (to R7: nothing); and PUSH Rb then POP Ra, neither being R7,
copies Rb into Ra and restores the stack pointer. Only the pushed cell of memory changes. -/
def Obligations.PushPopRoundTrip : Prop :=
  (∀ (a : RegIdx) (s : State), s.mem.wf = true → s.sp ≠ 0 → ∃ t, exec (.push (regByte a)) s = .next t ∧
    ∀ w : Byte, ∃ u, exec (.pop (regByte a)) (if a = Config.spIndex then t else t.setReg a w) = .next u ∧
      (∀ r, u.reg r = s.reg r) ∧ MemorySameBut (s.sp.toNat - 1) s u ∧ u.fl = s.fl ∧ u.run = s.run ∧ u.out = s.out) ∧
  (∀ (a b : RegIdx) (s : State), a ≠ Config.spIndex → b ≠ Config.spIndex → s.mem.wf = true → s.sp ≠ 0 →
    ∃ t u, exec (.push (regByte b)) s = .next t ∧ exec (.pop (regByte a)) t = .next u ∧
      u.reg a = s.reg b ∧ u.sp = s.sp ∧ RegsSameBut [a] s u ∧ MemorySameBut (s.sp.toNat - 1) s u)

/-! ## Control transfer -/

/-- CALL (44_control_transfer.md, rule of CALL; decisions D11, D12, D18): `pc` + 2 is pushed, the target register's
value becomes `pc`; with the stack pointer 0, at address 254, or on a bad index, AddressOutOfRange and nothing written.
That CALL R7 jumps to the new stack pointer is the spec's own inference "from the order of the source's sentence"
(log 11). -/
def Obligations.CallPushesReturnAddress : Prop :=
  (∀ a : Byte, encode (.call a) = [0x50, a]) ∧
  (∀ (a : RegIdx) (s : State), s.pc.toNat ≤ 253 → s.mem.wf = true → s.sp ≠ 0 →
    ∃ t, exec (.call (regByte a)) s = .next t ∧
    (∀ c : Nat, (c : Int) = pushAddr s →
      t.sp.toNat = c ∧ (t.byteAt c).toNat = s.pc.toNat + 2 ∧ MemorySameBut c s t ∧
      t.pc.toNat = if a = Config.spIndex then c else (s.reg a).toNat) ∧
    t.sp.toNat + 1 = s.sp.toNat ∧ RegsSameBut [Config.spIndex] s t ∧ t.fl = s.fl ∧ t.run = s.run ∧ t.out = s.out) ∧
  (∀ (a : RegIdx) (s : State), s.sp = 0 ∨ s.pc.toNat = 254 → Raises (.call (regByte a)) s .addressOutOfRange) ∧
  (∀ (a : Byte) (s : State), BadReg a → Raises (.call a) s .addressOutOfRange)

/-- RET (44_control_transfer.md R181, decision D11): `pc` becomes the byte at the stack pointer, which moves up by 1; a
stack pointer of 255 raises and nothing is written; CALL then RET resumes at the instruction after the CALL with every
register restored. -/
def Obligations.RetPopsReturnAddress : Prop :=
  encode .ret = [0x11] ∧
  (∀ s : State, s.sp ≠ 255 → ∃ t, exec .ret s = .next t ∧ t.pc.toNat = (s.byteAt s.sp.toNat).toNat ∧
    t.sp.toNat = s.sp.toNat + 1 ∧ RegsSameBut [Config.spIndex] s t ∧ t.fl = s.fl ∧ t.run = s.run ∧ t.out = s.out ∧
    MemorySame s t) ∧
  (∀ s : State, s.sp = 255 → Raises .ret s .addressOutOfRange) ∧
  (∀ (a : RegIdx) (s : State), s.pc.toNat ≤ 253 → s.mem.wf = true → s.sp ≠ 0 →
    ∃ t u, exec (.call (regByte a)) s = .next t ∧ exec .ret t = .next u ∧ u.pc.toNat = s.pc.toNat + 2 ∧
      ∀ r, u.reg r = s.reg r)

/-- JEQ (44_control_transfer.md R182, decisions D6 and D22): taken iff the flag is EQUAL, NONE included among the
untaken; nothing but `pc` changes; the index is checked taken or not. -/
def Obligations.JeqJumpsOnEqual : Prop := JumpRule .jeq 0x55 fun f => f = .equal

/-- JNE (44_control_transfer.md R183, decisions D6 and D22): taken iff the flag is not EQUAL, NONE included. -/
def Obligations.JneJumpsOnNotEqual : Prop := JumpRule .jne 0x56 fun f => f ≠ .equal

/-! ## The flag and the output -/

/-- 41_alu.md R134: only CMP writes the flag, whatever the result of the others; CMP writes no register. -/
def Obligations.OnlyCmpWritesFlag : Prop :=
  ∀ (i : Instr) (s t : State), exec i s = .next t →
    ((∀ a b, i ≠ .cmp a b) → t.fl = s.fl) ∧ (∀ a b, i = .cmp a b → RegsSameBut [] s t)

/-- 10_state.md R34: the flag holds the outcome of the most recent comparison; NONE holds from reset, stays until a CMP
completes, and never returns. -/
def Obligations.FlagNoneOnlyBeforeCmp : Prop :=
  State.reset.fl = .none ∧
  (∀ (i : Instr) (s t : State), exec i s = .next t → s.fl ≠ .none → t.fl ≠ .none) ∧
  (∀ (i : Instr) (s t : State), exec i s = .next t → (∀ a b, i ≠ .cmp a b) → t.fl = s.fl) ∧
  (∀ (a b : RegIdx) (s t : State), exec (.cmp (regByte a) (regByte b)) s = .next t →
    t.fl ≠ .none ∧ (t.fl = .equal ↔ s.reg a = s.reg b))

/-- 10_state.md R35 (the spec derives it): of the flag a program can observe only "EQUAL or not". Two machines that
differ only in the flag, and agree there on EQUAL, stay so over any number of steps under any opcode map: the same
registers, memory, pc, output and run state, the same fault or refusal. -/
def Obligations.FlagOrderIsUnobservable : Prop :=
  (∀ (c : Config) (s t : State), FlagTwin s t → OutcomesRelated FlagTwin (stepWith c s) (stepWith c t)) ∧
  (∀ (n : Nat) (s t : State), FlagTwin s t →
    OutcomesRelated FlagTwin (Sys2Proof.core.run n s) (Sys2Proof.core.run n t))

/-- 10_state.md R37: the output is empty at reset, a step appends to it only by PRN and then the register's value, and
the core never reads it: another log in its place changes nothing but the log. -/
def Obligations.OutputAppendedOnlyByPrn : Prop :=
  State.reset.out = [] ∧
  (∀ s t : State, step s = .next t → t.out = s.out ∨
    ∃ r : RegIdx, fetchWith Config.spec s = .ok (.prn (regByte r)) ∧ t.out = s.out ++ [s.reg r]) ∧
  (∀ (s t : State) (o : List Byte), step s = .next t →
    step { s with out := o } = .next { t with out := o ++ emitted s t })

/-! ## Registers and memory -/

/-- The table of 10_state.md R25 (the spec derives it): no instruction writes a register outside its row. -/
def Obligations.RegistersWrittenByTable : Prop :=
  ∀ (i : Instr) (s t : State), exec i s = .next t → ∀ r : RegIdx, mayWriteReg i r = false → t.reg r = s.reg r

/-- 20_memory.md R52 (the spec derives it): beyond the fetch only PUSH and CALL write memory, one byte, at the stack
pointer minus 1. -/
def Obligations.MemoryWrittenOnlyByPushAndCall : Prop :=
  ∀ (i : Instr) (s t : State), exec i s = .next t → ∀ c : Nat, t.byteAt c ≠ s.byteAt c →
    (∃ a, i = .push a ∨ i = .call a) ∧ (c : Int) = pushAddr s

/-- 20_memory.md R63 and 70_reset_and_hazards.md R235: the byte a PUSH or CALL stored is what a later fetch of its cell
gets, as opcode or as operand byte, with no step in between. What is stored is said by the rules of PUSH (43_stack.md)
and CALL (44_control_transfer.md); that PUSH R7 stores the NEW stack pointer is the spec's own inference "from the order
of the source's sentence", decision D18 (log 11). -/
def Obligations.StoredByteIsFetchedNext : Prop :=
  (∀ (a : RegIdx) (s t : State), s.mem.wf = true → s.sp ≠ 0 → exec (.push (regByte a)) s = .next t →
    ∀ (q : Pc) (k : Nat), k < 3 → q.toNat + k = t.sp.toNat →
      (fetchWindow (t.setPc q))[k]? = some (if a = Config.spIndex then t.sp else s.reg a)) ∧
  (∀ (a : RegIdx) (s t : State), s.mem.wf = true → s.sp ≠ 0 → s.pc.toNat ≤ 253 →
    exec (.call (regByte a)) s = .next t →
    ∀ (q : Pc) (k : Nat), k < 3 → q.toNat + k = t.sp.toNat →
      (fetchWindow (t.setPc q))[k]? = some (BitVec.ofNat 8 (s.pc.toNat + 2)))

/-- The memory's contract (20_memory.md section 2, R53) and what a read returns (section 8, R61): outside 0 to 255 both
operations raise AddressOutOfRange; inside, a write changes its cell and nothing else, and a read returns the latest
write. The canonical form, which a write keeps and which is a premise of the read, is the model's choice (log 7). -/
def Obligations.MemoryContract : Prop :=
  (∀ (s : State) (a : Int) (v : Byte), a < 0 ∨ 255 < a →
    memRead s a = .error .addressOutOfRange ∧ memWrite s a v = .error .addressOutOfRange) ∧
  (∀ (s : State) (a : Int) (v : Byte), 0 ≤ a → a ≤ 255 →
    memRead s a = .ok (s.byteAt a.toNat) ∧ ∃ t, memWrite s a v = .ok t ∧ t = { s with mem := t.mem } ∧
      (∀ b : Int, b ≠ a → memRead t b = memRead s b) ∧
      (s.mem.wf = true → t.mem.wf = true ∧ memRead t a = .ok v))

/-- Equal memories are equal data: two canonical memories that read alike at every address are the same list. The
canonical form is the model's choice (log 7); that every address 0 to 255 is a cell is 20_memory.md R50. -/
def Obligations.CanonicalMemoriesAreEqual : Prop :=
  ∀ m m' : Memory, m.wf = true → m'.wf = true → (∀ a : Nat, a < 256 → m.get a = m'.get a) → m = m'

/-- The register file's contract (10_state.md R24): the whole operand byte is the index; 0 to 7 name the eight
registers, 8 to 255 raise AddressOutOfRange; `set` changes one register, and `get` gives the last value set. -/
def Obligations.RegisterFileContract : Prop :=
  (∀ b : Byte, b.toNat ≤ 7 → ∃ i : RegIdx, i.val = b.toNat ∧ regIndex b = .ok i) ∧
  (∀ b : Byte, 7 < b.toNat → regIndex b = .error .addressOutOfRange) ∧
  (∀ (s : State) (i : RegIdx) (v : Byte), (s.setReg i v).reg i = v ∧ RegsSameBut [i] s (s.setReg i v))

/-! ## Faults -/

/-- 60_exceptions.md R196 and R197 (decisions D13, D14): when a step faults, only the run state changes, and the record
on the ports is the kind's code and the `pc` of the faulting instruction. -/
def Obligations.FaultsArePrecise : Prop :=
  ∀ (s t : State) (k : FaultKind) (p : Pc), step s = .next t → t.run = .faulted k p →
    t = { s with run := .faulted k s.pc } ∧
    outputPorts t = { halted := false, faultValid := true, faultKind := Config.spec.faultCode k, faultPc := some s.pc }

/-- 60_exceptions.md R192, R195 and R200 (decision D25): a RUNNING machine's step raises a fault exactly when one of the
listed causes holds, and then the first in the order of R200, with nothing else changed; and a load raises exactly when
the image is longer than memory. For POP R7 the popped byte decides, not the stack pointer: so the rule of POP
(43_stack.md) writes it, and it rests on the spec's own inference, decision D18 (log 11). With the stack pointer 255 and
another byte than 255 it is no fault, where the row of R192, read by its words alone, has one. -/
def Obligations.StepFaultsExactlyByCause : Prop :=
  (∀ (s : State) (k : FaultKind), s.run = .running → (StepRaises s k ↔ s.faultCause = some k)) ∧
  (∀ bytes : List Byte, launch bytes = .error .addressOutOfRange ↔ 256 < bytes.length)

/-! ## Invariant, reset, launch, debug port -/

/-- Every step keeps the invariant: memory canonical and inside 0 to 255, `pc` at most 256 (40_dispatch.md R120), a
recorded fault at the `pc` still held (60_exceptions.md R198), UnsupportedAluOperation never recorded (R194). Under
every opcode map. The canonical form is the model's choice (log 7). -/
def Obligations.StepKeepsInvariant : Prop :=
  ∀ (c : Config) (s t : State), s.Inv → stepWith c s = .next t → t.Inv

/-- The invariant holds at reset, for any values of the parameters. Its canonical form of memory is the model's choice
(log 7); its other clauses are those of 40_dispatch.md R120 and 60_exceptions.md R194 and R198. -/
def Obligations.InvariantAtReset : Prop := ∀ c : Config, (State.resetWith c).Inv

/-- What the source fixes of reset (10_state.md R28, R32): RUNNING, stack pointer 244 and `pc` 0, for any values of the
parameters, from any state. -/
def Obligations.ResetStackPointerAndPc : Prop :=
  (∀ c : Config, (State.resetWith c).sp.toNat = 244 ∧ (State.resetWith c).pc.toNat = 0 ∧
    (State.resetWith c).run = .running) ∧
  (∀ s : State, (hostReset s).sp.toNat = 244 ∧ (hostReset s).pc.toNat = 0 ∧ (hostReset s).run = .running)

/-- The whole reset state (10_state.md section 9, 70_reset_and_hazards.md section 1). R0 to R6 = 0 and flag NONE are the
spec's decisions D7 and D6 (logs 5 and 4). Nothing of the state before is kept. -/
def Obligations.ResetLeavesWholeState : Prop :=
  ∀ s : State, (∀ a : Nat, (hostReset s).byteAt a = 0) ∧ (∀ r : RegIdx, r ≠ 7 → (hostReset s).reg r = 0) ∧
    (hostReset s).reg 7 = 244 ∧ (hostReset s).pc = 0 ∧ (hostReset s).fl = .none ∧ (hostReset s).run = .running ∧
    (hostReset s).out = [] ∧ faultRecord (hostReset s) = none

/-- 20_memory.md R66 and R67 (decision D19): an image of at most 256 bytes stands at addresses 0 on, over zeros, and
nothing else of the reset state changes; a longer one raises AddressOutOfRange and does not start; the empty one is
legal and its first step raises IllegalInstruction at 0. The launch state has the invariant, whose canonical form is the
model's choice (log 7) and whose clauses on `pc` and the fault record the spec derives (40_dispatch.md R120,
60_exceptions.md R198). -/
def Obligations.LoadPlacesImageOverZeros : Prop :=
  (∀ bytes : List Byte, bytes.length ≤ 256 → ∃ t, launch bytes = .ok t ∧
    (∀ (i : Nat) (h : i < bytes.length), t.byteAt i = bytes[i]) ∧ (∀ i : Nat, bytes.length ≤ i → t.byteAt i = 0) ∧
    t = { State.reset with mem := t.mem } ∧ t.Inv) ∧
  (∀ bytes : List Byte, 256 < bytes.length → launch bytes = .error .addressOutOfRange) ∧
  (∃ t, launch [] = .ok t ∧ t.pc = 0 ∧ StepRaises t .illegalInstruction)

/-- 20_memory.md R70 and R71 (decision D21): the debug snapshot shows `pc`, the bytes at `pc`, `pc` + 1 and `pc` + 2,
each absent when its address is above 255, and the eight registers; it shows nothing of flag, run state and output. -/
def Obligations.SnapshotShowsPcBytesAndRegisters : Prop :=
  ∀ s : State, (snapshot s).pc = s.pc ∧ (∀ r : RegIdx, (snapshot s).regs[r.val] = s.reg r) ∧
    (s.pc.toNat ≤ 255 → (snapshot s).mem0 = some (s.byteAt s.pc.toNat)) ∧
    (255 < s.pc.toNat → (snapshot s).mem0 = none) ∧
    (s.pc.toNat + 1 ≤ 255 → (snapshot s).mem1 = some (s.byteAt (s.pc.toNat + 1))) ∧
    (255 < s.pc.toNat + 1 → (snapshot s).mem1 = none) ∧
    (s.pc.toNat + 2 ≤ 255 → (snapshot s).mem2 = some (s.byteAt (s.pc.toNat + 2))) ∧
    (255 < s.pc.toNat + 2 → (snapshot s).mem2 = none) ∧
    (∀ (f : Flag) (r : Run) (o : List Byte), snapshot { s with fl := f, run := r, out := o } = snapshot s)
end

