-- ==== Sys2Proof/Laws/Memory.lean ====
section
/-! SUPPORT. Memory: read after write, what a write leaves, the canonical form, and equality of canonical memories. -/

namespace Sys2Proof.Machine

/-- Canonical memories list nothing below their lower bound. -/
theorem wfFrom_get_below {m : Memory} {lo a : Nat} (h : m.wfFrom lo = true) (ha : a < lo) :
    m.get a = Config.memReset := by
  induction m generalizing lo with
  | nil => rfl
  | cons c rest ih =>
    obtain ⟨k, w⟩ := c
    simp only [Memory.wfFrom, Bool.and_eq_true, decide_eq_true_eq] at h
    have hk : k ≠ a := by omega
    simp only [Memory.get, if_neg hk]
    exact ih h.2 (by omega)

/-- A lower bound may be lowered. -/
theorem wfFrom_mono {m : Memory} {lo lo' : Nat} (h : m.wfFrom lo = true) (hlo : lo' ≤ lo) : m.wfFrom lo' = true := by
  cases m with
  | nil => rfl
  | cons c rest =>
    obtain ⟨k, w⟩ := c
    simp only [Memory.wfFrom, Bool.and_eq_true, decide_eq_true_eq] at h ⊢
    exact ⟨⟨⟨by omega, h.1.1.2⟩, h.1.2⟩, h.2⟩

/-- A write leaves every other cell alone. -/
theorem get_put_other {m : Memory} {a b : Nat} (v : Byte) (h : b ≠ a) : (m.put a v).get b = m.get b := by
  induction m with
  | nil => by_cases hv : v = Config.memReset <;> simp [Memory.put, Memory.get, hv, Ne.symm h]
  | cons c rest ih =>
    obtain ⟨k, w⟩ := c
    simp only [Memory.put]
    by_cases h1 : a < k
    · by_cases hv : v = Config.memReset <;> simp [h1, hv, Memory.get, Ne.symm h]
    · by_cases h2 : a = k
      · subst h2
        by_cases hv : v = Config.memReset <;> simp [hv, Memory.get, Ne.symm h]
      · simp only [if_neg h1, if_neg h2, Memory.get, ih]

/-- A read after a write to the same cell gives the value written (20_memory.md R61). -/
theorem get_put_same {m : Memory} {lo : Nat} (hm : m.wfFrom lo = true) (a : Nat) (v : Byte) : (m.put a v).get a = v := by
  induction m generalizing lo with
  | nil => by_cases hv : v = Config.memReset <;> simp [Memory.put, Memory.get, hv]
  | cons c rest ih =>
    obtain ⟨k, w⟩ := c
    simp only [Memory.wfFrom, Bool.and_eq_true, decide_eq_true_eq] at hm
    have hrest : ∀ x, x ≤ k → Memory.get rest x = Config.memReset := fun x hx => wfFrom_get_below hm.2 (by omega)
    simp only [Memory.put]
    by_cases h1 : a < k
    · by_cases hv : v = Config.memReset
      · simp [h1, hv, Memory.get, hrest a (by omega), show k ≠ a by omega]
      · simp [h1, hv, Memory.get]
    · by_cases h2 : a = k
      · subst h2
        by_cases hv : v = Config.memReset
        · simp [hv, hrest a (by omega)]
        · simp [hv, Memory.get]
      · simp only [if_neg h1, if_neg h2, Memory.get, if_neg (Ne.symm h2)]
        exact ih hm.2

/-- A write inside memory keeps the canonical form. -/
theorem wfFrom_put {m : Memory} {lo a : Nat} (v : Byte) (hm : m.wfFrom lo = true) (hlo : lo ≤ a)
    (ha : a < Config.memSize) : (m.put a v).wfFrom lo = true := by
  induction m generalizing lo with
  | nil => by_cases hv : v = Config.memReset <;> simp [Memory.put, Memory.wfFrom, hv, hlo, ha]
  | cons c rest ih =>
    obtain ⟨k, w⟩ := c
    have hm' := hm
    simp only [Memory.wfFrom, Bool.and_eq_true, decide_eq_true_eq] at hm
    obtain ⟨⟨⟨hlk, hk⟩, hw⟩, hrest⟩ := hm
    simp only [Memory.put]
    by_cases h1 : a < k
    · by_cases hv : v = Config.memReset
      · simpa [h1, hv] using hm'
      · simp [h1, hv, Memory.wfFrom, hlo, ha, hk, hw, hrest, show a + 1 ≤ k by omega]
    · by_cases h2 : a = k
      · subst h2
        by_cases hv : v = Config.memReset
        · simpa [hv] using wfFrom_mono hrest (by omega)
        · simp [hv, Memory.wfFrom, hlo, ha, hrest]
      · simp only [if_neg h1, if_neg h2, Memory.wfFrom, Bool.and_eq_true, decide_eq_true_eq]
        exact ⟨⟨⟨hlk, hk⟩, hw⟩, ih hrest (by omega)⟩

/-- Every write inside memory keeps the canonical form. -/
theorem wf_put {m : Memory} {a : Nat} (v : Byte) (hm : m.wf = true) (ha : a < Config.memSize) :
    (m.put a v).wf = true := wfFrom_put v hm (Nat.zero_le a) ha

/-- Storing consecutive bytes inside memory keeps the canonical form. -/
theorem wf_putBytes {m : Memory} {a : Nat} {bytes : List Byte} (hm : m.wf = true)
    (ha : a + bytes.length ≤ Config.memSize) : (m.putBytes a bytes).wf = true := by
  induction bytes generalizing m a with
  | nil => exact hm
  | cons v rest ih =>
    simp only [List.length_cons] at ha
    exact ih (wf_put v hm (by omega)) (by omega)

/-- A canonical memory reads the reset value outside 0 to 255. -/
theorem wfFrom_get_outside {m : Memory} {lo a : Nat} (hm : m.wfFrom lo = true) (ha : Config.memSize ≤ a) :
    m.get a = Config.memReset := by
  induction m generalizing lo with
  | nil => rfl
  | cons c rest ih =>
    obtain ⟨k, w⟩ := c
    simp only [Memory.wfFrom, Bool.and_eq_true, decide_eq_true_eq] at hm
    simp only [Memory.get, if_neg (show k ≠ a by omega)]
    exact ih hm.2

end Sys2Proof.Machine
end

