-- ==== Sys2Proof/Laws/State.lean ====
section
/-! SUPPORT. One lemma per field per update of State, and the register file's read-after-write law. -/

namespace Sys2Proof.Machine

variable (s : State) (i : RegIdx) (v : Byte) (t : Pc) (n : Nat) (f : Flag) (k : FaultKind)

@[simp] theorem setReg_mem : (s.setReg i v).mem = s.mem := rfl
@[simp] theorem setReg_pc : (s.setReg i v).pc = s.pc := rfl
@[simp] theorem setReg_fl : (s.setReg i v).fl = s.fl := rfl
@[simp] theorem setReg_run : (s.setReg i v).run = s.run := rfl
@[simp] theorem setReg_out : (s.setReg i v).out = s.out := rfl
@[simp] theorem setReg_regs : (s.setReg i v).regs = s.regs.set i.val v := rfl

@[simp] theorem setPc_mem : (s.setPc t).mem = s.mem := rfl
@[simp] theorem setPc_regs : (s.setPc t).regs = s.regs := rfl
@[simp] theorem setPc_pc : (s.setPc t).pc = t := rfl
@[simp] theorem setPc_fl : (s.setPc t).fl = s.fl := rfl
@[simp] theorem setPc_run : (s.setPc t).run = s.run := rfl
@[simp] theorem setPc_out : (s.setPc t).out = s.out := rfl
@[simp] theorem setPc_reg : (s.setPc t).reg i = s.reg i := rfl

@[simp] theorem advance_mem : (s.advance n).mem = s.mem := rfl
@[simp] theorem advance_regs : (s.advance n).regs = s.regs := rfl
@[simp] theorem advance_pc : (s.advance n).pc = s.pc + BitVec.ofNat 9 n := rfl
@[simp] theorem advance_fl : (s.advance n).fl = s.fl := rfl
@[simp] theorem advance_run : (s.advance n).run = s.run := rfl
@[simp] theorem advance_out : (s.advance n).out = s.out := rfl
@[simp] theorem advance_reg : (s.advance n).reg i = s.reg i := rfl

@[simp] theorem setFlag_mem : (s.setFlag f).mem = s.mem := rfl
@[simp] theorem setFlag_regs : (s.setFlag f).regs = s.regs := rfl
@[simp] theorem setFlag_pc : (s.setFlag f).pc = s.pc := rfl
@[simp] theorem setFlag_fl : (s.setFlag f).fl = f := rfl
@[simp] theorem setFlag_run : (s.setFlag f).run = s.run := rfl
@[simp] theorem setFlag_out : (s.setFlag f).out = s.out := rfl
@[simp] theorem setFlag_reg : (s.setFlag f).reg i = s.reg i := rfl

@[simp] theorem emit_mem : (s.emit v).mem = s.mem := rfl
@[simp] theorem emit_regs : (s.emit v).regs = s.regs := rfl
@[simp] theorem emit_pc : (s.emit v).pc = s.pc := rfl
@[simp] theorem emit_fl : (s.emit v).fl = s.fl := rfl
@[simp] theorem emit_run : (s.emit v).run = s.run := rfl
@[simp] theorem emit_out : (s.emit v).out = s.out ++ [v] := rfl
@[simp] theorem emit_reg : (s.emit v).reg i = s.reg i := rfl

@[simp] theorem raise_mem : (s.raise k).mem = s.mem := rfl
@[simp] theorem raise_regs : (s.raise k).regs = s.regs := rfl
@[simp] theorem raise_pc : (s.raise k).pc = s.pc := rfl
@[simp] theorem raise_fl : (s.raise k).fl = s.fl := rfl
@[simp] theorem raise_run : (s.raise k).run = .faulted k s.pc := rfl
@[simp] theorem raise_out : (s.raise k).out = s.out := rfl
@[simp] theorem raise_reg : (s.raise k).reg i = s.reg i := rfl

/-- Reading a register after writing one (10_state.md R24, R25). -/
@[simp] theorem setReg_reg (j : RegIdx) : (s.setReg i v).reg j = if i = j then v else s.reg j := by
  simp [State.setReg, State.reg, Vector.getElem_set, Fin.ext_iff]

/-- The stack pointer is register 7. -/
theorem sp_eq_reg : s.sp = s.reg 7 := rfl

@[simp] theorem advance_sp : (s.advance n).sp = s.sp := rfl
@[simp] theorem setPc_sp : (s.setPc t).sp = s.sp := rfl
@[simp] theorem setReg_sp : (s.setReg i v).sp = if i = Config.spIndex then v else s.sp := by
  simp [State.sp]

/-- Two states with the same registers have the same register file. -/
theorem regs_ext {s t : State} (h : ∀ i : RegIdx, s.reg i = t.reg i) : s.regs = t.regs := by
  apply Vector.ext
  intro i hi
  exact h ⟨i, hi⟩

/-- Advancing by a length that stays within 9 bits adds it, with no wrap (40_dispatch.md R115). -/
theorem advance_toNat {s : State} {n : Nat} (h : s.pc.toNat + n ≤ 256) :
    (s.advance n).pc.toNat = s.pc.toNat + n := by
  simp only [advance_pc, BitVec.toNat_add, BitVec.toNat_ofNat]
  omega

/-- The register width of this machine (00_scope.md R6, XLEN). -/
@[simp] theorem spec_xlen : Config.spec.xlen = 8 := rfl

/-- The program counter's width of this machine (00_scope.md R6, PC_BITS). -/
@[simp] theorem spec_pcBits : Config.spec.pcBits = 9 := rfl

/-- `trunc8` at this machine's register width. -/
theorem trunc8_eq (z : Int) : trunc8 z = BitVec.ofInt 8 z := rfl

/-- `zextPc` at this machine's program-counter width. -/
theorem zextPc_eq : zextPc v = v.setWidth 9 := rfl

/-- `pcOfNat` at this machine's program-counter width. -/
theorem pcOfNat_eq : pcOfNat n = BitVec.ofNat 9 n := rfl

/-- Zero extension keeps the number. -/
@[simp] theorem zextPc_toNat : (zextPc v).toNat = v.toNat := by
  have := v.isLt
  simp only [zextPc_eq, BitVec.toNat_setWidth]
  omega

/-- `trunc8` is the remainder modulo 256 (00_scope.md R9). -/
theorem trunc8_toNat (z : Int) : ((trunc8 z).toNat : Int) = z % 256 := by
  simp only [trunc8_eq, BitVec.toNat_ofInt]
  omega

/-- `trunc8` of a natural number. -/
@[simp] theorem trunc8_natCast_toNat (m : Nat) : (trunc8 (m : Int)).toNat = m % 256 := by
  have := trunc8_toNat (m : Int)
  omega

end Sys2Proof.Machine
end

