-- ==== Sys2Proof/Laws/Ops.lean ====
section
/-! SUPPORT. One lemma per shared operation that says everything it can do. -/

namespace Sys2Proof.Machine

/-- A computation that has succeeded goes on. -/
@[simp] theorem ok_bind {α β : Type} (a : α) (f : α → Except FaultKind β) : (Except.ok a >>= f) = f a := rfl

/-- A computation that has raised stops. -/
@[simp] theorem error_bind {α β : Type} (k : FaultKind) (f : α → Except FaultKind β) :
    ((Except.error k : Except FaultKind α) >>= f) = .error k := rfl

/-- A register byte names its register. -/
@[simp] theorem regIndex_regByte (i : RegIdx) : regIndex (regByte i) = .ok i := by
  revert i; decide

/-- Every byte either names one register or is bad. -/
theorem regIndex_cases (b : Byte) :
    (∃ i : RegIdx, b = regByte i ∧ regIndex b = .ok i) ∨ (BadReg b ∧ regIndex b = .error .addressOutOfRange) := by
  by_cases h : b.toNat < 8
  · refine .inl ⟨⟨b.toNat, h⟩, ?_, by simp [regIndex, h]⟩
    apply BitVec.eq_of_toNat_eq
    simp [regByte]
  · exact .inr ⟨by omega, by simp [regIndex, h]⟩

/-- A register byte is not bad. -/
theorem regByte_not_bad (i : RegIdx) : ¬ BadReg (regByte i) := by
  revert i; decide

/-- Register bytes are distinct. -/
theorem regByte_inj {i j : RegIdx} (h : regByte i = regByte j) : i = j := by
  revert i j; decide

/-- A bad byte makes `regIndex` raise. -/
theorem regIndex_bad {b : Byte} (h : BadReg b) : regIndex b = .error .addressOutOfRange := by
  simp [regIndex, show ¬ b.toNat < 8 by omega]

/-- The address decoder accepts the addresses 0 to 255. -/
theorem addrInRange_nat {a : Nat} (h : a < Config.memSize) : AddrInRange (a : Int) :=
  ⟨Int.natCast_nonneg a, Int.ofNat_lt.mpr h⟩

/-- The address decoder rejects every other integer. -/
theorem not_addrInRange {a : Int} (h : a < 0 ∨ 255 < a) : ¬ AddrInRange a := by
  simp only [AddrInRange, Config.memSize]
  omega

/-- MemRead inside memory reads the cell (20_memory.md R53). -/
theorem memRead_inside (s : State) {a : Nat} (h : a < Config.memSize) : memRead s a = .ok (s.byteAt a) :=
  if_pos (addrInRange_nat h)

/-- MemRead outside memory raises. -/
theorem memRead_outside (s : State) {a : Int} (h : a < 0 ∨ 255 < a) : memRead s a = .error .addressOutOfRange :=
  if_neg (not_addrInRange h)

/-- A byte as an address is always inside memory. -/
theorem memRead_byte (s : State) (v : Byte) : memRead s (v.toNat : Int) = .ok (s.byteAt v.toNat) :=
  memRead_inside s v.isLt

/-- MemWrite inside memory. -/
theorem memWrite_inside (s : State) {a : Nat} (v : Byte) (h : a < Config.memSize) :
    memWrite s a v = .ok { s with mem := s.mem.put a v } :=
  if_pos (addrInRange_nat h)

/-- MemWrite outside memory raises. -/
theorem memWrite_outside (s : State) {a : Int} (v : Byte) (h : a < 0 ∨ 255 < a) :
    memWrite s a v = .error .addressOutOfRange :=
  if_neg (not_addrInRange h)

/-- The settled result of an instruction: its state, or fault entry from where it began. -/
@[simp] theorem settle_ok (s t : State) : settle s (.ok t) = .next t := rfl

@[simp] theorem settle_error (s : State) (k : FaultKind) : settle s (.error k) = .next (s.raise k) := rfl

/-- What a settled instruction can answer. -/
theorem settle_next {s t : State} {r : Except FaultKind State} (h : settle s r = .next t) :
    r = .ok t ∨ ∃ k, r = .error k ∧ t = s.raise k := by
  cases r with
  | ok u => exact .inl (by simpa using h)
  | error k => exact .inr ⟨k, rfl, by simpa using h.symm⟩

/-- Fault entry is what `raise` does. -/
theorem raise_faultEntered (s : State) (k : FaultKind) : FaultEntered k s (s.raise k) :=
  ⟨rfl, rfl, rfl, rfl, fun _ _ => rfl, fun _ => rfl⟩

/-- Everything a push can do: with the stack pointer 0 it raises; otherwise the cell below the stack pointer holds the
byte and the stack pointer names that cell (43_stack.md R170). -/
theorem pushByte_cases (s : State) (v : Byte) :
    (s.sp = 0 ∧ pushByte s v = .error .addressOutOfRange) ∨
    (∃ c : Byte, c.toNat + 1 = s.sp.toNat ∧ pushAddr s = (c.toNat : Int) ∧ trunc8 (pushAddr s) = c ∧
      pushByte s v = .ok (State.setReg { s with mem := s.mem.put c.toNat v } Config.spIndex c)) := by
  by_cases h : s.sp = 0
  · refine .inl ⟨h, ?_⟩
    simp only [pushByte, pushAddr, h]
    rw [memWrite_outside s v (by simp)]
    rfl
  · have hne : s.sp.toNat ≠ 0 := fun h0 => h (BitVec.eq_of_toNat_eq (by simpa using h0))
    have hlt := s.sp.isLt
    have haddr : pushAddr s = ((s.sp.toNat - 1 : Nat) : Int) := by simp only [pushAddr]; omega
    have hc : (trunc8 (pushAddr s)).toNat = s.sp.toNat - 1 := by
      rw [haddr, trunc8_natCast_toNat]; omega
    refine .inr ⟨trunc8 (pushAddr s), by omega, by rw [hc, haddr], rfl, ?_⟩
    simp only [pushByte]
    rw [haddr, memWrite_inside s v (by simp only [Config.memSize]; omega), ← haddr, hc]
    rfl

/-- Everything the increment of a pop can do. -/
theorem incrementSp_cases (v : Byte) :
    (v = 255 ∧ incrementSp v = .error .addressOutOfRange) ∨
    (∃ w : Byte, w.toNat = v.toNat + 1 ∧ incrementSp v = .ok w) := by
  have hlt := v.isLt
  by_cases h : v = 255
  · exact .inl ⟨h, by subst h; rfl⟩
  · have hne : v.toNat ≠ 255 := fun h0 => h (BitVec.eq_of_toNat_eq (by simpa using h0))
    refine .inr ⟨trunc8 ((v.toNat + 1 : Nat) : Int), ?_, ?_⟩
    · rw [trunc8_natCast_toNat]; omega
    · simp only [incrementSp]
      rw [if_neg (by omega)]
      rfl

/-- Everything the return address of a CALL can do. -/
theorem returnByte_cases (s : State) :
    (253 < s.pc.toNat ∧ returnByte s = .error .addressOutOfRange) ∨
    (∃ r : Byte, r.toNat = s.pc.toNat + 2 ∧ returnByte s = .ok r) := by
  by_cases h : 253 < s.pc.toNat
  · exact .inl ⟨h, by simp [returnByte, returnAddr, show s.pc.toNat + 2 > 255 by omega]⟩
  · refine .inr ⟨trunc8 ((s.pc.toNat + 2 : Nat) : Int), ?_, ?_⟩
    · rw [trunc8_natCast_toNat]; omega
    · have hr : ¬ returnAddr s > 255 := by simp only [returnAddr]; omega
      exact if_neg hr

end Sys2Proof.Machine
end

