-- ==== Sys2Proof/Laws/Alu.lean ====
section
/-! SUPPORT. The ALU block and the two shapes of ALU instruction. -/

namespace Sys2Proof.Machine

/-- A select code of a supported operation reaches that operation. -/
@[simp] theorem ofSelect_select (o : AluOp) : AluOp.ofSelect o.select = some o := by
  cases o <;> decide

/-- The ALU on a supported select code. -/
@[simp] theorem alu_select (o : AluOp) (u v : Byte) : alu o.select u v = aluCompute o u v := by
  simp [alu]

/-- A two-register ALU instruction on good indices. -/
theorem aluTwoRegister_good (o : AluOp) (a b : RegIdx) (s : State) :
    aluTwoRegister o (regByte a) (regByte b) s =
      settle s ((aluCompute o (s.reg a) (s.reg b)).map fun r => (writeAluResult s a r).advance 3) := by
  simp only [aluTwoRegister, regIndex_regByte, alu_select, ok_bind]
  cases aluCompute o (s.reg a) (s.reg b) <;> rfl

/-- A two-register ALU instruction on a bad index. -/
theorem aluTwoRegister_bad (o : AluOp) {a b : Byte} (s : State) (h : BadReg a ∨ BadReg b) :
    aluTwoRegister o a b s = .next (s.raise .addressOutOfRange) := by
  rcases regIndex_cases a with ⟨i, rfl, hi⟩ | ⟨-, hi⟩
  · have hb : BadReg b := h.resolve_left (regByte_not_bad i)
    simp only [aluTwoRegister, hi, regIndex_bad hb]
    rfl
  · simp only [aluTwoRegister, hi]
    rfl

/-- The one-register ALU instruction on a good index. -/
theorem aluOneRegister_good (o : AluOp) (a : RegIdx) (s : State) :
    aluOneRegister o (regByte a) s =
      settle s ((aluCompute o (s.reg a) (s.reg a)).map fun r => (writeAluResult s a r).advance 2) := by
  simp only [aluOneRegister, regIndex_regByte, alu_select, ok_bind]
  cases aluCompute o (s.reg a) (s.reg a) <;> rfl

/-- The one-register ALU instruction on a bad index. -/
theorem aluOneRegister_bad (o : AluOp) {a : Byte} (s : State) (h : BadReg a) :
    aluOneRegister o a s = .next (s.raise .addressOutOfRange) := by
  simp only [aluOneRegister, regIndex_bad h]
  rfl

/-- Everything a two-register ALU instruction can do. -/
theorem aluTwoRegister_cases {o : AluOp} {a b : Byte} {s t : State} (h : aluTwoRegister o a b s = .next t) :
    (∃ i j r, a = regByte i ∧ b = regByte j ∧ aluCompute o (s.reg i) (s.reg j) = .ok r ∧
      t = (writeAluResult s i r).advance 3) ∨
    (∃ k, t = s.raise k ∧ (k = .addressOutOfRange ∧ (BadReg a ∨ BadReg b) ∨
      ∃ i j, a = regByte i ∧ b = regByte j ∧ aluCompute o (s.reg i) (s.reg j) = .error k)) := by
  rcases regIndex_cases a with ⟨i, rfl, hi⟩ | ⟨ha, -⟩
  · rcases regIndex_cases b with ⟨j, rfl, hj⟩ | ⟨hb, -⟩
    · rw [aluTwoRegister_good] at h
      rcases hr : aluCompute o (s.reg i) (s.reg j) with k | r
      · rw [hr] at h
        exact .inr ⟨k, by simpa [Except.map] using h.symm, .inr ⟨i, j, rfl, rfl, hr⟩⟩
      · rw [hr] at h
        exact .inl ⟨i, j, r, rfl, rfl, hr, by simpa [Except.map] using h.symm⟩
    · rw [aluTwoRegister_bad o s (.inr hb)] at h
      exact .inr ⟨_, by simpa using h.symm, .inl ⟨rfl, .inr hb⟩⟩
  · rw [aluTwoRegister_bad o s (.inl ha)] at h
    exact .inr ⟨_, by simpa using h.symm, .inl ⟨rfl, .inl ha⟩⟩

/-- Everything the one-register ALU instruction can do. -/
theorem aluOneRegister_cases {o : AluOp} {a : Byte} {s t : State} (h : aluOneRegister o a s = .next t) :
    (∃ i r, a = regByte i ∧ aluCompute o (s.reg i) (s.reg i) = .ok r ∧ t = (writeAluResult s i r).advance 2) ∨
    (∃ k, t = s.raise k ∧ (k = .addressOutOfRange ∧ BadReg a ∨
      ∃ i, a = regByte i ∧ aluCompute o (s.reg i) (s.reg i) = .error k)) := by
  rcases regIndex_cases a with ⟨i, rfl, hi⟩ | ⟨ha, -⟩
  · rw [aluOneRegister_good] at h
    rcases hr : aluCompute o (s.reg i) (s.reg i) with k | r
    · rw [hr] at h
      exact .inr ⟨k, by simpa [Except.map] using h.symm, .inr ⟨i, rfl, hr⟩⟩
    · rw [hr] at h
      exact .inl ⟨i, r, rfl, hr, by simpa [Except.map] using h.symm⟩
  · rw [aluOneRegister_bad o s ha] at h
    exact .inr ⟨_, by simpa using h.symm, .inl ⟨rfl, ha⟩⟩

/-- The only error of a supported ALU operation is a zero divisor (60_exceptions.md R194, R195). -/
theorem aluCompute_error {o : AluOp} {u v : Byte} {k : FaultKind} (h : aluCompute o u v = .error k) :
    k = .divisionByZero ∧ v.toNat = 0 ∧ (o = .div ∨ o = .mod) := by
  cases o <;> simp only [aluCompute, aluDiv, aluMod, reduceCtorEq] at h
  all_goals
    split at h
    · exact ⟨by simpa [Except.map] using h.symm, ‹_›, by simp⟩
    · simp [Except.map] at h

/-- CMP delivers a comparison, every other operation a value (41_alu.md R134). -/
theorem aluCompute_ok {o : AluOp} {u v : Byte} {r : AluResult} (h : aluCompute o u v = .ok r) :
    (o = .cmp ∧ r = .comparison (compareFlag u v)) ∨ (o ≠ .cmp ∧ ∃ w, r = .value w) := by
  cases o <;> simp only [aluCompute, aluDiv, aluMod] at h
  case cmp => exact .inl ⟨rfl, by simpa using h.symm⟩
  all_goals refine .inr ⟨by simp, ?_⟩
  case div =>
    split at h
    · simp [Except.map] at h
    · exact ⟨_, by simpa [Except.map] using h.symm⟩
  case mod =>
    split at h
    · simp [Except.map] at h
    · exact ⟨_, by simpa [Except.map] using h.symm⟩
  all_goals exact ⟨_, by simpa using h.symm⟩

/-- The operation of the ALU that an operation of the table invokes is sent by its opcode's low four bits. -/
theorem select_is_low_bits (o : Op) (p : AluOp) (h : aluOpOf o = some p) :
    p.select = (opcodeByte o).setWidth 4 := by
  revert h; cases o <;> cases p <;> decide

end Sys2Proof.Machine
end

