-- ==== Sys2Proof/Laws/Exec.lean ====
section
/-! SUPPORT. What each meaning that is no ALU instruction can do: its result on a good index, and fault entry on a bad
one; and that executing an instruction always answers a next state. -/

namespace Sys2Proof.Machine

/-- LDI on a good index. -/
theorem execLdi_good (a : RegIdx) (imm : Byte) (s : State) :
    execLdi (regByte a) imm s = .next ((s.setReg a imm).advance 3) := by
  simp only [execLdi, regIndex_regByte, ok_bind]
  rfl

/-- LDI on a bad index. -/
theorem execLdi_bad {a : Byte} (imm : Byte) (s : State) (h : BadReg a) :
    execLdi a imm s = .next (s.raise .addressOutOfRange) := by
  simp only [execLdi, regIndex_bad h]
  rfl

/-- PRN on a good index. -/
theorem execPrn_good (a : RegIdx) (s : State) : execPrn (regByte a) s = .next ((s.emit (s.reg a)).advance 2) := by
  simp only [execPrn, regIndex_regByte, ok_bind]
  rfl

/-- PRN on a bad index. -/
theorem execPrn_bad {a : Byte} (s : State) (h : BadReg a) : execPrn a s = .next (s.raise .addressOutOfRange) := by
  simp only [execPrn, regIndex_bad h]
  rfl

/-- Everything PUSH can do on a good index: it raises with the stack pointer 0; otherwise the cell below the stack
pointer holds the pushed value, the stack pointer names it, and `pc` advances. -/
theorem execPush_good (a : RegIdx) (s : State) :
    (s.sp = 0 ∧ execPush (regByte a) s = .next (s.raise .addressOutOfRange)) ∨
    (∃ c : Byte, c.toNat + 1 = s.sp.toNat ∧ pushAddr s = (c.toNat : Int) ∧ execPush (regByte a) s =
      .next ((State.setReg { s with mem := s.mem.put c.toNat (if a = Config.spIndex then c else s.reg a) }
        Config.spIndex c).advance 2)) := by
  rcases pushByte_cases s (pushOperand s a) with ⟨h0, he⟩ | ⟨c, hc, ha, ht, he⟩
  · exact .inl ⟨h0, by simp only [execPush, regIndex_regByte, ok_bind, he]; rfl⟩
  · refine .inr ⟨c, hc, ha, ?_⟩
    simp only [execPush, regIndex_regByte, ok_bind, he]
    simp only [pushOperand, ht]
    rfl

/-- PUSH on a bad index. -/
theorem execPush_bad {a : Byte} (s : State) (h : BadReg a) : execPush a s = .next (s.raise .addressOutOfRange) := by
  simp only [execPush, regIndex_bad h]
  rfl

/-- Everything POP can do on a good index: it raises when the stack pointer just before its increment is 255;
otherwise the register holds the popped byte and the stack pointer is incremented, last. -/
theorem execPop_good (a : RegIdx) (s : State) :
    ((if a = Config.spIndex then s.byteAt s.sp.toNat else s.sp) = 255 ∧
      execPop (regByte a) s = .next (s.raise .addressOutOfRange)) ∨
    (∃ w : Byte, w.toNat = (if a = Config.spIndex then s.byteAt s.sp.toNat else s.sp).toNat + 1 ∧
      execPop (regByte a) s =
        .next (((s.setReg a (s.byteAt s.sp.toNat)).setReg Config.spIndex w).advance 2)) := by
  have hread : memRead s (popAddr s) = .ok (s.byteAt s.sp.toNat) := memRead_byte s s.sp
  rcases incrementSp_cases (if a = Config.spIndex then s.byteAt s.sp.toNat else s.sp) with ⟨h, he⟩ | ⟨w, hw, he⟩
  · exact .inl ⟨h, by simp only [execPop, regIndex_regByte, ok_bind, hread, setReg_sp, he]; rfl⟩
  · exact .inr ⟨w, hw, by simp only [execPop, regIndex_regByte, ok_bind, hread, setReg_sp, he]; rfl⟩

/-- POP on a bad index. -/
theorem execPop_bad {a : Byte} (s : State) (h : BadReg a) : execPop a s = .next (s.raise .addressOutOfRange) := by
  simp only [execPop, regIndex_bad h]
  rfl

/-- Everything CALL can do on a good index: it raises with the stack pointer 0 or with no one-byte return address;
otherwise the return address is pushed and `pc` is the register's value after the push. -/
theorem execCall_good (a : RegIdx) (s : State) :
    ((s.sp = 0 ∨ 253 < s.pc.toNat) ∧ execCall (regByte a) s = .next (s.raise .addressOutOfRange)) ∨
    (∃ c r : Byte, c.toNat + 1 = s.sp.toNat ∧ pushAddr s = (c.toNat : Int) ∧ r.toNat = s.pc.toNat + 2 ∧
      execCall (regByte a) s =
        .next ((State.setReg { s with mem := s.mem.put c.toNat r } Config.spIndex c).setPc
          (zextPc (if a = Config.spIndex then c else s.reg a)))) := by
  rcases returnByte_cases s with ⟨h, he⟩ | ⟨r, hr, he⟩
  · exact .inl ⟨.inr h, by simp only [execCall, regIndex_regByte, ok_bind, he]; rfl⟩
  · rcases pushByte_cases s r with ⟨h0, hp⟩ | ⟨c, hc, ha, -, hp⟩
    · exact .inl ⟨.inl h0, by simp only [execCall, regIndex_regByte, ok_bind, he, hp]; rfl⟩
    · refine .inr ⟨c, r, hc, ha, hr, ?_⟩
      have htarget : ∀ u : State, (u.setReg Config.spIndex c).reg a = if a = Config.spIndex then c else u.reg a := by
        intro u
        rw [setReg_reg]
        by_cases h7 : a = Config.spIndex
        · rw [if_pos h7.symm, if_pos h7]
        · rw [if_neg (Ne.symm h7), if_neg h7]
      simp only [execCall, regIndex_regByte, ok_bind, he, hp, htarget]
      rfl

/-- CALL on a bad index. -/
theorem execCall_bad {a : Byte} (s : State) (h : BadReg a) : execCall a s = .next (s.raise .addressOutOfRange) := by
  simp only [execCall, regIndex_bad h]
  rfl

/-- Everything RET can do. -/
theorem execRet_cases (s : State) :
    (s.sp = 255 ∧ execRet s = .next (s.raise .addressOutOfRange)) ∨
    (∃ w : Byte, w.toNat = s.sp.toNat + 1 ∧
      execRet s = .next ((s.setReg Config.spIndex w).setPc (zextPc (s.byteAt s.sp.toNat)))) := by
  have hread : memRead s (popAddr s) = .ok (s.byteAt s.sp.toNat) := memRead_byte s s.sp
  rcases incrementSp_cases s.sp with ⟨h, he⟩ | ⟨w, hw, he⟩
  · exact .inl ⟨h, by simp only [execRet, ok_bind, hread, he]; rfl⟩
  · exact .inr ⟨w, hw, by simp only [execRet, ok_bind, hread, he]; rfl⟩

/-- A conditional jump on a good index. -/
theorem conditionalJump_good (taken : Bool) (a : RegIdx) (s : State) :
    conditionalJump taken (regByte a) s =
      .next (if taken then s.setPc (zextPc (s.reg a)) else s.advance 2) := by
  simp only [conditionalJump, regIndex_regByte, ok_bind]
  rfl

/-- A conditional jump on a bad index. -/
theorem conditionalJump_bad (taken : Bool) {a : Byte} (s : State) (h : BadReg a) :
    conditionalJump taken a s = .next (s.raise .addressOutOfRange) := by
  simp only [conditionalJump, regIndex_bad h]
  rfl

/-- The test of the conditional jumps. -/
theorem flagIsEqual_iff (f : Flag) : flagIsEqual f = true ↔ f = .equal := by
  cases f <;> decide

/-- Settling always answers a next state. -/
theorem settle_total (s : State) (r : Except FaultKind State) : ∃ t, settle s r = .next t := by
  cases r <;> exact ⟨_, rfl⟩

/-- Executing an instruction always answers a next state (60_exceptions.md R213, "Stuck states: there are none"). -/
theorem exec_total (i : Instr) (s : State) : ∃ t, exec i s = .next t := by
  cases i <;> simp only [exec]
  case hlt => exact ⟨_, rfl⟩
  all_goals
    simp only [execLdi, execPrn, execPush, execPop, execCall, execRet, execJeq, execJne, conditionalJump, execAdd, execSub, execMul, execDiv,
      execMod, execCmp, execAnd, execOr, execXor, execShl, execShr, execNot, aluTwoRegister, aluOneRegister]
    exact settle_total s _

end Sys2Proof.Machine
end

