-- ==== Sys2Proof/Laws/Step.lean ====
section
/-! SUPPORT. The opcode lookup, what a fetch can answer, and what a step can answer. -/

namespace Sys2Proof.Machine

/-- Every operation is in the list of all. -/
theorem mem_all (o : Op) : o ∈ Op.all := by cases o <;> decide

/-- The lookup finds an operation whose opcode byte is the one looked up. -/
theorem opOf_some {c : Config} {b : Byte} {o : Op} (h : c.opOf b = some o) : c.opcodeMap o = b := by
  simpa using List.find?_some h

/-- The lookup fails exactly on the bytes of no operation (30_encoding.md R88). -/
theorem opOf_none {c : Config} {b : Byte} : c.opOf b = none ↔ ∀ o, c.opcodeMap o ≠ b := by
  simp only [Config.opOf, List.find?_eq_none, beq_iff_eq]
  exact ⟨fun h o => h o (mem_all o), fun h o _ => h o⟩

/-- Under distinct opcode bytes the lookup inverts the map (30_encoding.md R85). -/
theorem opOf_opcodeMap {c : Config} (hc : c.OpcodesDistinct) (o : Op) : c.opOf (c.opcodeMap o) = some o := by
  cases h : c.opOf (c.opcodeMap o) with
  | none => exact absurd rfl (opOf_none.mp h o)
  | some p => rw [hc p o (opOf_some h)]

/-- The default opcode bytes are distinct. -/
theorem spec_opcodesDistinct : Config.spec.OpcodesDistinct := by
  intro o p
  cases o <;> cases p <;> decide

/-- The operation of an assembled instruction. -/
@[simp] theorem assemble_op (o : Op) (a b : Byte) : (o.assemble a b).op = o := by
  cases o <;> rfl

/-- The three cases of an operand count. -/
theorem operandCount_cases (o : Op) :
    o.format.operandCount = 0 ∨ o.format.operandCount = 1 ∨ o.format.operandCount = 2 := by
  cases o <;> decide

/-- Everything a fetch can answer, in the order of 40_dispatch.md R110 to R113: the first missing byte or an illegal
opcode raises; otherwise the operation of the opcode byte with the operand bytes that follow it. -/
theorem fetchWith_cases (c : Config) (s : State) :
    (255 < s.pc.toNat ∧ fetchWith c s = .error .addressOutOfRange) ∨
    (s.pc.toNat ≤ 255 ∧ c.opOf (s.byteAt s.pc.toNat) = none ∧ fetchWith c s = .error .illegalInstruction) ∨
    (∃ o, s.pc.toNat ≤ 255 ∧ c.opOf (s.byteAt s.pc.toNat) = some o ∧
      ((256 < s.pc.toNat + o.length ∧ fetchWith c s = .error .addressOutOfRange) ∨
       (s.pc.toNat + o.length ≤ 256 ∧
        fetchWith c s = .ok (o.assemble (s.byteAt (s.pc.toNat + 1)) (s.byteAt (s.pc.toNat + 2)))))) := by
  by_cases hp : 255 < s.pc.toNat
  · refine .inl ⟨hp, ?_⟩
    simp only [fetchWith, memRead_outside s (a := (s.pc.toNat : Int)) (by omega)]
    rfl
  · have h0 : memRead s ((s.pc.toNat : Nat) : Int) = .ok (s.byteAt s.pc.toNat) :=
      memRead_inside s (by simp only [Config.memSize]; omega)
    have hin : ∀ k : Nat, s.pc.toNat + k ≤ 255 →
        memRead s ((s.pc.toNat : Int) + k) = .ok (s.byteAt (s.pc.toNat + k)) := by
      intro k hk
      exact memRead_inside s (a := s.pc.toNat + k) (by simp only [Config.memSize]; omega)
    have hout : ∀ k : Nat, 255 < s.pc.toNat + k → memRead s ((s.pc.toNat : Int) + k) = .error .addressOutOfRange := by
      intro k hk
      exact memRead_outside s (by omega)
    cases hop : c.opOf (s.byteAt s.pc.toNat) with
    | none =>
      refine .inr (.inl ⟨by omega, rfl, ?_⟩)
      simp only [fetchWith, h0, ok_bind, hop]
    | some o =>
      refine .inr (.inr ⟨o, by omega, rfl, ?_⟩)
      have h1 := hin 1
      have h2 := hin 2
      have h1' := hout 1
      have h2' := hout 2
      simp only [Nat.cast_one, Nat.cast_ofNat] at h1 h2 h1' h2'
      rcases operandCount_cases o with hn | hn | hn
      · refine .inr ⟨by simp only [Op.length, hn]; omega, ?_⟩
        simp only [fetchWith, h0, ok_bind, hop, hn]
        cases o <;> simp [Op.format, Format.operandCount] at hn <;> rfl
      · by_cases hl : s.pc.toNat + 1 ≤ 255
        · refine .inr ⟨by simp only [Op.length, hn]; omega, ?_⟩
          simp only [fetchWith, h0, ok_bind, hop, hn, h1 hl]
          cases o <;> simp [Op.format, Format.operandCount] at hn <;> rfl
        · refine .inl ⟨by simp only [Op.length, hn]; omega, ?_⟩
          simp only [fetchWith, h0, ok_bind, hop, hn, h1' (by omega), error_bind]
      · by_cases hl : s.pc.toNat + 2 ≤ 255
        · refine .inr ⟨by simp only [Op.length, hn]; omega, ?_⟩
          simp only [fetchWith, h0, ok_bind, hop, hn, h1 (by omega), h2 hl]
          rfl
        · refine .inl ⟨by simp only [Op.length, hn]; omega, ?_⟩
          by_cases hl1 : s.pc.toNat + 1 ≤ 255
          · simp only [fetchWith, h0, ok_bind, hop, hn, h1 hl1, h2' (by omega), error_bind]
          · simp only [fetchWith, h0, ok_bind, hop, hn, h1' (by omega), error_bind]

/-- Everything a step that answers a next state can do: it starts RUNNING, and either the fetch raises or the fetched
instruction is executed. -/
theorem stepWith_next {c : Config} {s t : State} (h : stepWith c s = .next t) :
    s.run = .running ∧
    ((∃ k, fetchWith c s = .error k ∧ t = s.raise k) ∨ ∃ i, fetchWith c s = .ok i ∧ exec i s = .next t) := by
  unfold stepWith at h
  split at h
  · rename_i hr
    refine ⟨hr, ?_⟩
    split at h
    · rename_i i hf
      exact .inr ⟨i, hf, h⟩
    · rename_i k hf
      exact .inl ⟨k, hf, by simpa using h.symm⟩
  · simp at h
  · simp at h

/-- A RUNNING step whose fetch succeeds executes the fetched instruction. -/
theorem stepWith_exec {c : Config} {s : State} {i : Instr} (hr : s.run = .running) (hf : fetchWith c s = .ok i) :
    stepWith c s = exec i s := by
  simp [stepWith, hr, hf]

/-- A RUNNING step whose fetch raises enters the fault. -/
theorem stepWith_raise {c : Config} {s : State} {k : FaultKind} (hr : s.run = .running)
    (hf : fetchWith c s = .error k) : stepWith c s = .next (s.raise k) := by
  simp [stepWith, hr, hf]

end Sys2Proof.Machine
end

