-- ==== Sys2Proof/Laws/Cases.lean ====
section
/-! SUPPORT. What executing any instruction can do, said once: the inversion lemma from which the whole-machine rules
follow. -/

namespace Sys2Proof.Machine

/-- The effects an instruction can have. -/
inductive Effect (i : Instr) (s t : State) : Prop where
  /-- A fault, never UnsupportedAluOperation. -/
  | fault (k : FaultKind) (hk : k ≠ .unsupportedAluOperation) (ht : t = s.raise k)
  /-- HLT. -/
  | halt (hi : i = .hlt) (ht : t = { s.advance 1 with run := .halted })
  /-- LDI and the eleven ALU instructions that write a register: that register, and `pc` past the instruction. -/
  | write (r : RegIdx) (v : Byte) (hr : mayWriteReg i r = true) (hc : ∀ a b, i ≠ .cmp a b)
      (hcat : i.op.category ≠ .controlTransfer) (hp : ∀ a, i ≠ .prn a)
      (ht : t = (s.setReg r v).advance i.op.length)
  /-- CMP: the flag, never NONE, and `pc`. -/
  | compare (a b : RegIdx) (hi : i = .cmp (regByte a) (regByte b))
      (ht : t = (s.setFlag (compareFlag (s.reg a) (s.reg b))).advance 3)
  /-- PRN: the output, and `pc`. -/
  | print (a : RegIdx) (hi : i = .prn (regByte a)) (ht : t = (s.emit (s.reg a)).advance 2)
  /-- PUSH: one cell, the stack pointer, and `pc`. -/
  | push (a : RegIdx) (c : Byte) (hi : i = .push (regByte a)) (hc : c.toNat + 1 = s.sp.toNat)
      (ha : pushAddr s = (c.toNat : Int))
      (ht : t = (State.setReg { s with mem := s.mem.put c.toNat (if a = Config.spIndex then c else s.reg a) }
        Config.spIndex c).advance 2)
  /-- POP: the register, then the stack pointer, and `pc`. -/
  | pop (a : RegIdx) (w : Byte) (hi : i = .pop (regByte a))
      (ht : t = ((s.setReg a (s.byteAt s.sp.toNat)).setReg Config.spIndex w).advance 2)
  /-- CALL: one cell, the stack pointer, and the target in `pc`. -/
  | call (a : RegIdx) (c r : Byte) (hi : i = .call (regByte a)) (hc : c.toNat + 1 = s.sp.toNat)
      (ha : pushAddr s = (c.toNat : Int)) (hr : r.toNat = s.pc.toNat + 2)
      (ht : t = (State.setReg { s with mem := s.mem.put c.toNat r } Config.spIndex c).setPc
        (zextPc (if a = Config.spIndex then c else s.reg a)))
  /-- RET: the stack pointer, and the target in `pc`. -/
  | ret (w : Byte) (hi : i = .ret) (hw : w.toNat = s.sp.toNat + 1)
      (ht : t = (s.setReg Config.spIndex w).setPc (zextPc (s.byteAt s.sp.toNat)))
  /-- JEQ or JNE: `pc` alone, taken or not. -/
  | jump (a : RegIdx) (taken : Bool)
      (hi : i = .jeq (regByte a) ∧ (taken = true ↔ s.fl = .equal) ∨
        i = .jne (regByte a) ∧ (taken = true ↔ s.fl ≠ .equal))
      (ht : t = if taken then s.setPc (zextPc (s.reg a)) else s.advance 2)

/-- The effect of a two-register ALU instruction other than CMP. -/
theorem effect_of_alu2 {o : AluOp} {i : Instr} {a b : Byte} {s t : State} (h : aluTwoRegister o a b s = .next t)
    (ho : o ≠ .cmp) (hw : ∀ r, a = regByte r → mayWriteReg i r = true) (hc : ∀ a b, i ≠ .cmp a b)
    (hcat : i.op.category ≠ .controlTransfer) (hp : ∀ a, i ≠ .prn a) (hl : i.op.length = 3) : Effect i s t := by
  rcases aluTwoRegister_cases h with ⟨r, j, v, ha, _, hv, rfl⟩ | ⟨k, rfl, ⟨rfl, _⟩ | ⟨_, _, _, _, he⟩⟩
  · rcases aluCompute_ok hv with ⟨h', _⟩ | ⟨_, w, rfl⟩
    · exact absurd h' ho
    · exact .write r w (hw r ha) hc hcat hp (by rw [hl]; rfl)
  · exact .fault _ (by simp) rfl
  · exact .fault _ (by simp [(aluCompute_error he).1]) rfl

/-- AddressOutOfRange is one of the effects. -/
theorem effect_of_range {i : Instr} {s t : State}
    (h : (.next (s.raise .addressOutOfRange) : Host.Outcome State Fault Refusal) = .next t) : Effect i s t :=
  .fault .addressOutOfRange (by decide) (by simpa using h.symm)

/-- Executing an instruction has one of the effects. -/
theorem exec_effect {i : Instr} {s t : State} (h : exec i s = .next t) : Effect i s t := by
  cases i <;> simp only [exec] at h
  case hlt => exact .halt rfl (by simpa [execHlt] using h.symm)
  case ldi a imm =>
    rcases regIndex_cases a with ⟨r, rfl, -⟩ | ⟨ha, -⟩
    · rw [execLdi_good] at h
      exact .write r imm (by simp [mayWriteReg]) (by simp) (by simp [Instr.op, Op.category]) (by simp)
        (by simpa [Instr.op, Op.length, Op.format, Format.operandCount] using h.symm)
    · rw [execLdi_bad imm s ha] at h
      exact effect_of_range h
  case prn a =>
    rcases regIndex_cases a with ⟨r, rfl, -⟩ | ⟨ha, -⟩
    · rw [execPrn_good] at h
      exact .print r rfl (by simpa using h.symm)
    · rw [execPrn_bad s ha] at h
      exact effect_of_range h
  case push a =>
    rcases regIndex_cases a with ⟨r, rfl, -⟩ | ⟨ha, -⟩
    · rcases execPush_good r s with ⟨-, he⟩ | ⟨c, hc, hp, he⟩
      · rw [he] at h
        exact effect_of_range h
      · rw [he] at h
        exact .push r c rfl hc hp (by simpa using h.symm)
    · rw [execPush_bad s ha] at h
      exact effect_of_range h
  case pop a =>
    rcases regIndex_cases a with ⟨r, rfl, -⟩ | ⟨ha, -⟩
    · rcases execPop_good r s with ⟨-, he⟩ | ⟨w, -, he⟩
      · rw [he] at h
        exact effect_of_range h
      · rw [he] at h
        exact .pop r w rfl (by simpa using h.symm)
    · rw [execPop_bad s ha] at h
      exact effect_of_range h
  case call a =>
    rcases regIndex_cases a with ⟨r, rfl, -⟩ | ⟨ha, -⟩
    · rcases execCall_good r s with ⟨-, he⟩ | ⟨c, v, hc, hp, hv, he⟩
      · rw [he] at h
        exact effect_of_range h
      · rw [he] at h
        exact .call r c v rfl hc hp hv (by simpa using h.symm)
    · rw [execCall_bad s ha] at h
      exact effect_of_range h
  case ret =>
    rcases execRet_cases s with ⟨-, he⟩ | ⟨w, hw, he⟩
    · rw [he] at h
      exact effect_of_range h
    · rw [he] at h
      exact .ret w rfl hw (by simpa using h.symm)
  case jeq a =>
    rcases regIndex_cases a with ⟨r, rfl, -⟩ | ⟨ha, -⟩
    · rw [execJeq, conditionalJump_good] at h
      exact .jump r (flagIsEqual s.fl) (.inl ⟨rfl, flagIsEqual_iff _⟩) (by simpa only [Host.Outcome.next.injEq] using h.symm)
    · rw [execJeq, conditionalJump_bad _ s ha] at h
      exact effect_of_range h
  case jne a =>
    rcases regIndex_cases a with ⟨r, rfl, -⟩ | ⟨ha, -⟩
    · rw [execJne, conditionalJump_good] at h
      exact .jump r (!flagIsEqual s.fl) (.inr ⟨rfl, by rw [Bool.not_eq_true', ← Bool.not_eq_true, flagIsEqual_iff]⟩)
        (by simpa only [Host.Outcome.next.injEq] using h.symm)
    · rw [execJne, conditionalJump_bad _ s ha] at h
      exact effect_of_range h
  case cmp a b =>
    rcases aluTwoRegister_cases h with ⟨r, j, v, rfl, rfl, hv, rfl⟩ | ⟨k, rfl, ⟨rfl, _⟩ | ⟨_, _, _, _, he⟩⟩
    · rcases aluCompute_ok hv with ⟨_, rfl⟩ | ⟨h', _⟩
      · exact .compare r j rfl rfl
      · exact absurd rfl h'
    · exact .fault _ (by simp) rfl
    · exact .fault _ (by simp [(aluCompute_error he).1]) rfl
  case not a =>
    rcases aluOneRegister_cases h with ⟨r, v, rfl, hv, rfl⟩ | ⟨k, rfl, ⟨rfl, _⟩ | ⟨_, _, he⟩⟩
    · rcases aluCompute_ok hv with ⟨h', _⟩ | ⟨_, w, rfl⟩
      · cases h'
      · exact .write r w (by simp [mayWriteReg]) (by simp) (by simp [Instr.op, Op.category]) (by simp) rfl
    · exact .fault _ (by simp) rfl
    · exact .fault _ (by simp [(aluCompute_error he).1]) rfl
  all_goals
    exact effect_of_alu2 h (by simp) (by rintro r rfl; simp [mayWriteReg]) (by simp) (by simp [Instr.op, Op.category])
      (by simp) rfl

/-- The window of a fetch, byte by byte. -/
theorem fetchWindow_eq (s : State) : fetchWindow s =
    (if s.pc.toNat < 256 then [s.byteAt s.pc.toNat] else []) ++
    ((if s.pc.toNat + 1 < 256 then [s.byteAt (s.pc.toNat + 1)] else []) ++
    (if s.pc.toNat + 2 < 256 then [s.byteAt (s.pc.toNat + 2)] else [])) := by
  simp only [fetchWindow, show List.range 3 = [0, 1, 2] from rfl, Config.memSize, List.filterMap, Nat.add_zero,
    State.byteAt]
  by_cases h0 : s.pc.toNat < 256 <;> by_cases h1 : s.pc.toNat + 1 < 256 <;> by_cases h2 : s.pc.toNat + 2 < 256 <;>
    simp [h0, h1, h2]

end Sys2Proof.Machine
end

