-- ==== Sys2Proof/Laws/Core.lean ====
section
/-! SUPPORT. The machine behind the host's interface, and its runs, in the model's own terms. -/

namespace Sys2Proof.Machine

/-- The host's step is the model's. -/
theorem core_step (s : State) : Sys2Proof.core.step s = step s := rfl

/-- A run of one more step. -/
theorem core_run_succ (n : Nat) (s : State) : Sys2Proof.core.run (n + 1) s =
    match step s with
    | .next t => Sys2Proof.core.run n t
    | .fault r => .fault r
    | .refused r => .refused r := by
  simp only [Host.Core.run, core_step]
  cases step s <;> rfl

end Sys2Proof.Machine
end

