-- ==== Sys2Proof/Laws/PerInstr.lean ====
section
/-! SUPPORT. The family of statements made per instruction: the shape of an encoding. -/

namespace Sys2Proof.Laws.EncodedShape

/-- The encoding of an instruction begins with its operation's opcode byte, and is as long as the operation's length
says (30_encoding.md R80, R81). -/
def Statement (i : Instr) : Prop :=
  (encode i).head? = some (opcodeByte i.op) ∧ (encode i).length = i.op.length

theorem hlt : Statement .hlt := ⟨rfl, rfl⟩
theorem ldi (a imm : Byte) : Statement (.ldi a imm) := ⟨rfl, rfl⟩
theorem prn (a : Byte) : Statement (.prn a) := ⟨rfl, rfl⟩
theorem push (a : Byte) : Statement (.push a) := ⟨rfl, rfl⟩
theorem pop (a : Byte) : Statement (.pop a) := ⟨rfl, rfl⟩
theorem call (a : Byte) : Statement (.call a) := ⟨rfl, rfl⟩
theorem ret : Statement .ret := ⟨rfl, rfl⟩
theorem jeq (a : Byte) : Statement (.jeq a) := ⟨rfl, rfl⟩
theorem jne (a : Byte) : Statement (.jne a) := ⟨rfl, rfl⟩
theorem add (a b : Byte) : Statement (.add a b) := ⟨rfl, rfl⟩
theorem sub (a b : Byte) : Statement (.sub a b) := ⟨rfl, rfl⟩
theorem mul (a b : Byte) : Statement (.mul a b) := ⟨rfl, rfl⟩
theorem div (a b : Byte) : Statement (.div a b) := ⟨rfl, rfl⟩
theorem mod (a b : Byte) : Statement (.mod a b) := ⟨rfl, rfl⟩
theorem cmp (a b : Byte) : Statement (.cmp a b) := ⟨rfl, rfl⟩
theorem and (a b : Byte) : Statement (.and a b) := ⟨rfl, rfl⟩
theorem or (a b : Byte) : Statement (.or a b) := ⟨rfl, rfl⟩
theorem xor (a b : Byte) : Statement (.xor a b) := ⟨rfl, rfl⟩
theorem shl (a b : Byte) : Statement (.shl a b) := ⟨rfl, rfl⟩
theorem shr (a b : Byte) : Statement (.shr a b) := ⟨rfl, rfl⟩
theorem not (a : Byte) : Statement (.not a) := ⟨rfl, rfl⟩

end Sys2Proof.Laws.EncodedShape
end

