-- ==== Sys2Proof/Tests/Slice0.lean ====
section
/-! SUPPORT. The model's own tests: well-formedness, decoding, one step per vector of spec/95_test_vectors.md (every
expected value is that file's), and a witness for the hypotheses of every statement that has some. -/

namespace Sys2Proof.Machine.Tests

/-- The launch state with bytes at `pc` instead of a program at 0. -/
def at_ (pc : Pc) (bytes : List Byte) : State :=
  { State.reset with pc := pc, mem := Memory.putBytes [] pc.toNat bytes }

/-- One more memory cell. -/
def cell (s : State) (a : Nat) (v : Byte) : State := { s with mem := s.mem.put a v }

/-- The step from `s` answers exactly the state `f s`. -/
def stepsTo (s : State) (f : State → State) : Bool :=
  match step s with
  | .next t => decide (t = f s)
  | .fault _ | .refused _ => false

/-- The step from `s` answers a next state of which `p` holds. -/
def stepsWhere (s : State) (p : State → Bool) : Bool :=
  match step s with
  | .next t => p t
  | .fault _ | .refused _ => false

/-- Executing `i` in `s` answers a next state of which `p` holds. -/
def execWhere (i : Instr) (s : State) (p : State → Bool) : Bool :=
  match exec i s with
  | .next t => p t
  | .fault _ | .refused _ => false

/-- The fetch from `s` gives the instruction `i`. -/
def fetches (s : State) (i : Instr) : Bool :=
  match fetchWith Config.spec s with
  | .ok j => decide (j = i)
  | .error _ => false

/-- The first instruction of a list of bytes, and how many bytes are left. -/
def decodes (bytes : List Byte) : Option (Instr × Nat) :=
  match decode bytes with
  | .ok (i, rest) => some (i, rest.length)
  | .error _ => none

/-! ## Well-formedness -/

theorem test_wf_refuses_one_register : (Instr.prn 8).wf = false := by decide
theorem test_wf_refuses_first_register : (Instr.add 8 0).wf = false := by decide
theorem test_wf_refuses_second_register : (Instr.add 0 255).wf = false := by decide
theorem test_wf_refuses_ldi_register : (Instr.ldi 8 0).wf = false := by decide
theorem test_wf_accepts : (Instr.ldi 7 255).wf = true ∧ (Instr.cmp 7 0).wf = true ∧ Instr.ret.wf = true := by decide

/-! ## Decoding: words written from 30_encoding.md R81 and R84 -/

theorem test_decode_hlt : decodes [0b00000001] = some (.hlt, 0) := by decide
theorem test_decode_ldi : decodes [0b10000010, 0b00000111, 0b11111111] = some (.ldi 7 255, 0) := by decide
theorem test_decode_prn : decodes [0b01000111, 0b00000000] = some (.prn 0, 0) := by decide
theorem test_decode_push : decodes [0b01000101, 0b00000011] = some (.push 3, 0) := by decide
theorem test_decode_pop : decodes [0b01000110, 0b00000001] = some (.pop 1, 0) := by decide
theorem test_decode_call : decodes [0b01010000, 0b00000010] = some (.call 2, 0) := by decide
theorem test_decode_ret : decodes [0b00010001] = some (.ret, 0) := by decide
theorem test_decode_jeq : decodes [0b01010101, 0b00000100] = some (.jeq 4, 0) := by decide
theorem test_decode_jne : decodes [0b01010110, 0b00000010] = some (.jne 2, 0) := by decide
theorem test_decode_add : decodes [0b10100000, 0b00000000, 0b00000001] = some (.add 0 1, 0) := by decide
theorem test_decode_sub : decodes [0b10100001, 0b00000010, 0b00000011] = some (.sub 2 3, 0) := by decide
theorem test_decode_mul : decodes [0b10100010, 0b00000100, 0b00000101] = some (.mul 4 5, 0) := by decide
theorem test_decode_div : decodes [0b10100011, 0b00000110, 0b00000111] = some (.div 6 7, 0) := by decide
theorem test_decode_mod : decodes [0b10100100, 0b00000111, 0b00000110] = some (.mod 7 6, 0) := by decide
theorem test_decode_cmp : decodes [0b10100111, 0b00000110, 0b00000111] = some (.cmp 6 7, 0) := by decide
theorem test_decode_and : decodes [0b10101000, 0b00000101, 0b00000100] = some (.and 5 4, 0) := by decide
theorem test_decode_or : decodes [0b10101010, 0b00000011, 0b00000010] = some (.or 3 2, 0) := by decide
theorem test_decode_xor : decodes [0b10101011, 0b00000001, 0b00000000] = some (.xor 1 0, 0) := by decide
theorem test_decode_shl : decodes [0b10101100, 0b00000000, 0b00000111] = some (.shl 0 7, 0) := by decide
theorem test_decode_shr : decodes [0b10101101, 0b00000111, 0b00000000] = some (.shr 7 0, 0) := by decide
theorem test_decode_not : decodes [0b01101001, 0b00000101] = some (.not 5, 0) := by decide
theorem test_decode_first_of_two : decodes [0b01000111, 0b00000000, 0b00000001] = some (.prn 0, 1) := by decide
theorem test_decode_illegal : decodes [0x54, 0, 0] = none ∧ decodes [0x02, 0, 0] = none ∧ decodes [0xA9, 0, 0] = none := by
  decide
theorem test_decode_missing_operand : decodes [0xA0, 0] = none ∧ decodes [0x45] = none ∧ decodes [] = none := by decide
theorem test_decode_table_word : decodeTableWord 24 0xFF0782 = some (.ldi 7 255) ∧ decodeTableWord 16 0x0345 = some (.push 3) ∧
    decodeTableWord 8 0x11 = some .ret ∧ decodeTableWord 8 0xA0 = some (.add 0 0) := by decide

/-- 30_encoding.md R86: bits 7:6 count the operand bytes, bit 5 marks the ALU rows, bit 4 the rows that may write pc. -/
theorem test_opcode_structure : ∀ o ∈ Op.all, (opcodeByte o).toNat / 64 = o.format.operandCount ∧
    (opcodeByte o).getLsbD 5 = (aluOpOf o).isSome ∧ (opcodeByte o).getLsbD 4 = o.mayBypassAdvance := by decide

/-- 00_scope.md R6: the defaults of the decision rows, and that the widths are those of the types. -/
theorem test_config_defaults : Config.spec.xlen = 8 ∧ Config.spec.pcBits = 9 ∧ Config.spec.flagReset = .none ∧
    Config.spec.regReset = #v[0, 0, 0, 0, 0, 0, 0] ∧ Config.spec.divRound = .floor ∧
    (Config.spec.faultCode .addressOutOfRange, Config.spec.faultCode .divisionByZero) = (1, 4) ∧
    Byte = BitVec Config.spec.xlen ∧ Pc = BitVec Config.spec.pcBits :=
  ⟨by decide, by decide, by decide, by decide, by decide, by decide, rfl, rfl⟩

/-- 10_state.md R44. -/
theorem test_flag_layout : flagLayout .none = 0b000 ∧ flagLayout .equal = 0b001 ∧ flagLayout .greaterThan = 0b010 ∧
    flagLayout .lessThan = 0b100 := by decide

/-- The listing of 30_encoding.md R95. -/
theorem test_parse_source :
    parseSource "10000010 # LDI R0,8\n00000000\n00001000\n\n01000111 # PRN R0\n00000000\n00000001 # HLT\n".toList =
      some [0x82, 0x00, 0x08, 0x47, 0x00, 0x01] := by decide

/-! ## One step per vector of spec/95_test_vectors.md -/

/-- Fault entry. -/
def faults (k : FaultKind) (s : State) : State := { s with run := .faulted k s.pc }

/-- V1. -/
theorem test_add_wraps :
    stepsTo (((at_ 0 [0xA0, 0x00, 0x01]).setReg 0 200).setReg 1 100)
      (fun s => (s.setReg 0 44).setPc 3) = true := by decide
/-- V68. -/
theorem test_add_writes_stack_pointer :
    stepsTo ((at_ 0 [0xA0, 0x07, 0x00]).setReg 0 1)
      (fun s => (s.setReg 7 245).setPc 3) = true := by decide
/-- V6. -/
theorem test_sub_wraps :
    stepsTo (((at_ 0 [0xA1, 0x00, 0x01]).setReg 0 5).setReg 1 10)
      (fun s => (s.setReg 0 251).setPc 3) = true := by decide
/-- V56. -/
theorem test_sub_same_register :
    stepsTo ((at_ 0 [0xA1, 0x03, 0x03]).setReg 3 77)
      (fun s => (s.setReg 3 0).setPc 3) = true := by decide
/-- V12. -/
theorem test_mul_largest :
    stepsTo (((at_ 0 [0xA2, 0x00, 0x01]).setReg 0 255).setReg 1 255)
      (fun s => (s.setReg 0 1).setPc 3) = true := by decide
/-- V57. -/
theorem test_mul_same_register :
    stepsTo ((at_ 0 [0xA2, 0x03, 0x03]).setReg 3 20)
      (fun s => (s.setReg 3 144).setPc 3) = true := by decide
/-- V15. -/
theorem test_div_floor :
    stepsTo (((at_ 0 [0xA3, 0x00, 0x01]).setReg 0 200).setReg 1 7)
      (fun s => (s.setReg 0 28).setPc 3) = true := by decide
/-- V19. -/
theorem test_div_by_zero :
    stepsTo (((at_ 0 [0xA3, 0x00, 0x01]).setReg 0 9).setReg 1 0)
      (faults .divisionByZero) = true := by decide
/-- V21. -/
theorem test_mod_remainder :
    stepsTo (((at_ 0 [0xA4, 0x00, 0x01]).setReg 0 200).setReg 1 7)
      (fun s => (s.setReg 0 4).setPc 3) = true := by decide
/-- V61. -/
theorem test_mod_by_zero :
    stepsTo ((at_ 0 [0xA4, 0x03, 0x03]).setReg 3 0)
      (faults .divisionByZero) = true := by decide
/-- V26. -/
theorem test_and_pattern :
    stepsTo (((at_ 0 [0xA8, 0x00, 0x01]).setReg 0 204).setReg 1 170)
      (fun s => (s.setReg 0 136).setPc 3) = true := by decide
/-- V29. -/
theorem test_or_pattern :
    stepsTo (((at_ 0 [0xAA, 0x00, 0x01]).setReg 0 204).setReg 1 170)
      (fun s => (s.setReg 0 238).setPc 3) = true := by decide
/-- V32. -/
theorem test_xor_pattern :
    stepsTo (((at_ 0 [0xAB, 0x00, 0x01]).setReg 0 204).setReg 1 170)
      (fun s => (s.setReg 0 102).setPc 3) = true := by decide
/-- V35. -/
theorem test_shl_loses_top_bits :
    stepsTo (((at_ 0 [0xAC, 0x00, 0x01]).setReg 0 23).setReg 1 4)
      (fun s => (s.setReg 0 112).setPc 3) = true := by decide
/-- V40. -/
theorem test_shl_largest_count :
    stepsTo (((at_ 0 [0xAC, 0x00, 0x01]).setReg 0 255).setReg 1 255)
      (fun s => (s.setReg 0 0).setPc 3) = true := by decide
/-- V41. -/
theorem test_shr_logical :
    stepsTo (((at_ 0 [0xAD, 0x00, 0x01]).setReg 0 240).setReg 1 4)
      (fun s => (s.setReg 0 15).setPc 3) = true := by decide
/-- V46. -/
theorem test_shr_large_count :
    stepsTo (((at_ 0 [0xAD, 0x00, 0x01]).setReg 0 255).setReg 1 200)
      (fun s => (s.setReg 0 0).setPc 3) = true := by decide
/-- V50. -/
theorem test_cmp_is_unsigned :
    stepsTo (((at_ 0 [0xA7, 0x00, 0x01]).setReg 0 255).setReg 1 0)
      (fun s => (s.setFlag .greaterThan).setPc 3) = true := by decide
/-- V72. -/
theorem test_cmp_bad_index_keeps_flag :
    stepsTo ((at_ 0 [0xA7, 0x00, 0x09]).setFlag .equal)
      (faults .addressOutOfRange) = true := by decide
/-- V52. -/
theorem test_not_pattern :
    stepsTo ((at_ 0 [0x69, 0x02]).setReg 2 15)
      (fun s => (s.setReg 2 240).setPc 2) = true := by decide
/-- V71. -/
theorem test_not_index_255 :
    stepsTo (at_ 0 [0x69, 0xFF])
      (faults .addressOutOfRange) = true := by decide
/-- V79. -/
theorem test_ldi_at_end_of_memory :
    stepsTo (at_ 253 [0x82, 0x00, 0x08])
      (fun s => (s.setReg 0 8).setPc 256) = true := by decide
/-- V80. -/
theorem test_ldi_past_end_of_memory :
    stepsTo (at_ 254 [0x82, 0x00])
      (faults .addressOutOfRange) = true := by decide
/-- V84. -/
theorem test_prn_emits :
    stepsTo ((at_ 0 [0x47, 0x01]).setReg 1 255)
      (fun s => (s.emit 255).setPc 2) = true := by decide
/-- V85. -/
theorem test_prn_index_8 :
    stepsTo (at_ 0 [0x47, 0x08])
      (faults .addressOutOfRange) = true := by decide
/-- V87. -/
theorem test_hlt_halts :
    stepsTo (at_ 0 [0x01])
      (fun s => { s.setPc 1 with run := .halted }) = true := by decide
/-- V88. -/
theorem test_hlt_at_255 :
    stepsTo (at_ 255 [0x01])
      (fun s => { s.setPc 256 with run := .halted }) = true := by decide
/-- V90. -/
theorem test_push_lowest :
    stepsTo (((at_ 0 [0x45, 0x00]).setReg 0 8).setReg 7 1)
      (fun s => ((cell s 0 8).setReg 7 0).setPc 2) = true := by decide
/-- V92. -/
theorem test_push_stack_pointer :
    stepsTo (at_ 0 [0x45, 0x07])
      (fun s => ((cell s 243 243).setReg 7 243).setPc 2) = true := by decide
/-- V97. -/
theorem test_pop_to_255 :
    stepsTo ((cell (at_ 0 [0x46, 0x01]) 254 77).setReg 7 254)
      (fun s => ((s.setReg 1 77).setReg 7 255).setPc 2) = true := by decide
/-- V99. -/
theorem test_pop_stack_pointer :
    stepsTo ((cell (at_ 0 [0x46, 0x07]) 243 100).setReg 7 243)
      (fun s => (s.setReg 7 101).setPc 2) = true := by decide
/-- V105. -/
theorem test_call_return_address_255 :
    stepsTo ((at_ 253 [0x50, 0x01]).setReg 1 20)
      (fun s => ((cell s 243 255).setReg 7 243).setPc 20) = true := by decide
/-- V106. -/
theorem test_call_stack_pointer :
    stepsTo (at_ 6 [0x50, 0x07])
      (fun s => ((cell s 243 8).setReg 7 243).setPc 243) = true := by decide
/-- V109. -/
theorem test_ret_pops :
    stepsTo ((cell (at_ 14 [0x11]) 243 8).setReg 7 243)
      (fun s => (s.setReg 7 244).setPc 8) = true := by decide
/-- V111. -/
theorem test_ret_past_255 :
    stepsTo ((cell (at_ 14 [0x11]) 255 8).setReg 7 255)
      (faults .addressOutOfRange) = true := by decide
/-- V113. -/
theorem test_jeq_taken :
    stepsTo (((at_ 10 [0x55, 0x02]).setReg 2 19).setFlag .equal)
      (fun s => s.setPc 19) = true := by decide
/-- V121. -/
theorem test_jeq_untaken_bad_index :
    stepsTo ((at_ 10 [0x55, 0x08]).setFlag .lessThan)
      (faults .addressOutOfRange) = true := by decide
/-- V117. -/
theorem test_jne_untaken :
    stepsTo (((at_ 10 [0x56, 0x02]).setReg 2 4).setFlag .equal)
      (fun s => s.setPc 12) = true := by decide
/-- V120. -/
theorem test_jne_taken_on_none :
    stepsTo ((at_ 10 [0x56, 0x02]).setReg 2 4)
      (fun s => s.setPc 4) = true := by decide
/-- V124. -/
theorem test_zero_is_no_instruction :
    stepsTo (at_ 30 [0x00])
      (faults .illegalInstruction) = true := by decide
/-- V131. -/
theorem test_absent_ls8_load :
    stepsTo (at_ 30 [0x83])
      (faults .illegalInstruction) = true := by decide

/-- 40_dispatch.md R119: a halted machine has no step, and a faulted one surfaces its record. -/
theorem test_stopped_machines :
    step { State.reset with run := .halted } = .refused .halted ∧
    step { State.reset with run := .faulted .divisionByZero 6 } = .fault (.surfaced .divisionByZero 6) := ⟨rfl, rfl⟩

/-- 60_exceptions.md R191: the code of a division by zero is 4, of no fault 0. -/
theorem test_fault_ports :
    outputPorts { State.reset with run := .faulted .divisionByZero 6 } = ⟨false, true, 4, some 6⟩ ∧
    outputPorts State.reset = ⟨false, false, 0, none⟩ := by decide

/-! ## Witnesses: states and operands that meet the hypotheses of the statements, boundary values among them -/

theorem witness_DecodeInvertsEncode : Config.spec.OpcodesDistinct := spec_opcodesDistinct

theorem witness_EncodeInvertsDecode : decodeWith Config.spec [0x82, 7, 255, 1] = .ok (.ldi 7 255, [1]) := rfl

theorem witness_IllegalOpcodesRaise :
    (at_ 255 [0x83]).run = .running ∧ (at_ 255 [0x83]).pc.toNat ≤ 255 ∧
    Config.spec.opOf ((at_ 255 [0x83]).byteAt (at_ 255 [0x83]).pc.toNat) = none ∧
    State.reset.pc.toNat ≤ 255 ∧ Config.spec.opOf (State.reset.byteAt State.reset.pc.toNat) = none := by decide

theorem witness_StepRunsDecodedInstruction :
    (at_ 253 [0xA0, 1, 2]).run = .running ∧ decode (fetchWindow (at_ 253 [0xA0, 1, 2])) = .ok (.add 1 2, []) ∧
    decodeWith Config.spec (fetchWindow (at_ 255 [0x01])) = .ok (.hlt, []) ∧
    decode (fetchWindow (at_ 0 [0x47, 3, 1])) = .ok (.prn 3, [1]) := ⟨rfl, rfl, rfl, rfl⟩

/-- Each clause, each of the three disjuncts, and an instruction that just fits. -/
theorem witness_FetchPastMemoryRaises :
    (at_ 256 []).run = .running ∧ (at_ 256 []).pc.toNat = 256 ∧
    Config.spec.opOf ((at_ 255 [0x45]).byteAt 255) = some .push ∧ Op.push.length = 2 ∧
    Config.spec.opOf ((at_ 254 [0xA0, 0]).byteAt 254) = some .add ∧
    Config.spec.opOf ((at_ 255 [0xA0]).byteAt 255) = some .add ∧ Op.add.length = 3 ∧
    Config.spec.opOf ((at_ 253 [0xA0, 1, 2]).byteAt 253) = some .add ∧ (at_ 253 [0xA0, 1, 2]).Fits Op.add.length := by decide

/-- A step to RUNNING, one to HALTED, one to FAULTED, and the two kinds of state with no step. -/
theorem witness_RunStateTransitions :
    stepsWhere (at_ 0 [0x82, 0, 8]) (fun t => decide (t.run = .running)) = true ∧
    stepsWhere (at_ 0 [0x01]) (fun t => decide (t.run = .halted)) = true ∧
    stepsWhere (at_ 0 [0xA3, 0, 1]) (fun t => decide (t.run = .faulted .divisionByZero 0)) = true ∧
    (at_ 0 [0xA3, 0, 1]).pc.toNat ≤ 256 ∧ ({ State.reset with run := .halted } : State).run ≠ .running ∧
    ({ State.reset with run := .faulted .divisionByZero 6 } : State).run ≠ .running := by decide

theorem witness_RunningAlwaysSteps : State.reset.run = .running ∧ (at_ 256 []).run = .running := by decide

/-- A completing step of each kind: HLT to 256, a jump each way, CALL, RET. -/
theorem witness_PcSequencing :
    (fetches (at_ 255 [0x01]) .hlt && stepsWhere (at_ 255 [0x01]) fun t => decide (t.run = .halted)) = true ∧
    (fetches (at_ 254 [0x55, 2]) (.jeq 2) && stepsWhere (at_ 254 [0x55, 2]) fun t => decide (t.run = .running)) = true ∧
    (fetches (at_ 0 [0x56, 2]) (.jne 2) && stepsWhere (at_ 0 [0x56, 2]) fun t => decide (t.run = .running)) = true ∧
    (fetches ((at_ 0 [0x55, 2]).setFlag .equal) (.jeq (regByte 2)) &&
      stepsWhere ((at_ 0 [0x55, 2]).setFlag .equal) fun t => decide (t.run = .running)) = true ∧
    (fetches ((at_ 254 [0x56, 2]).setFlag .equal) (.jne 2) &&
      stepsWhere ((at_ 254 [0x56, 2]).setFlag .equal) fun t => decide (t.run = .running)) = true ∧
    (fetches (at_ 253 [0x50, 7]) (.call (regByte 7)) &&
      stepsWhere (at_ 253 [0x50, 7]) fun t => decide (t.run = .running)) = true ∧
    (fetches (at_ 0 [0x11]) .ret && stepsWhere (at_ 0 [0x11]) fun t => decide (t.run = .running)) = true := by decide

/-- For AddWritesSumModulo256, SubWritesDifferenceModulo256, MulWritesProductModulo256, AndWritesBitwiseAnd,
OrWritesBitwiseOr, XorWritesBitwiseXor, ShlShiftsByWholeCount, ShrShiftsByWholeCount (`TwoRegisterRule`, and the second
clauses of SUB, SHL and SHR). -/
theorem witness_twoRegisterRules :
    (at_ 253 []).Fits 3 ∧ BadReg 8 ∧ BadReg 255 ∧ ((0 : RegIdx) ≠ 1) ∧ 8 ≤ (((at_ 0 []).setReg 1 8).reg 1).toNat ∧
    8 ≤ (((at_ 0 []).setReg 1 255).reg 1).toNat := by decide

/-- For DivWritesFloorQuotient and ModWritesRemainder (`DivisorRule`, and their second clauses). -/
theorem witness_divisorRules :
    (at_ 253 []).Fits 3 ∧ ((at_ 253 []).setReg 1 1).reg 1 ≠ 0 ∧ (at_ 0 []).reg 1 = 0 ∧ BadReg 8 ∧
    ((255 : Byte) ≠ 0) := by decide

theorem witness_NotWritesComplement : (at_ 254 []).Fits 2 ∧ BadReg 8 := by decide

/-- The three outcomes, on states at the boundary 253; and the bad indices. -/
theorem witness_CmpSetsFlagByUnsignedOrder :
    (at_ 253 []).Fits 3 ∧ ((at_ 253 []).reg 0).toNat = ((at_ 253 []).reg 1).toNat ∧
    ((at_ 253 []).reg 0).toNat < ((at_ 253 []).reg 7).toNat ∧ BadReg 8 := by decide

theorem witness_CmpThenJumpFollowsEquality :
    (at_ 251 []).Fits 5 ∧ (at_ 251 []).reg 0 = (at_ 251 []).reg 1 ∧ (at_ 251 []).reg 0 ≠ (at_ 251 []).reg 7 := by decide

/-- An ALU row; and, for the last clause, a state that already records the fault: only such a state can (the clause says
so). -/
theorem witness_AluSelectCodes :
    aluOpOf .not = some .not ∧
    execWhere (.prn 0) { State.reset with run := .faulted .unsupportedAluOperation 3 }
      (fun t => decide (t.run = .faulted .unsupportedAluOperation 3)) = true := by decide

theorem witness_HltHaltsAndAdvances :
    (at_ 255 []).Fits 1 ∧ execWhere .hlt State.reset (fun t => decide (t.run = .halted)) = true := by decide

theorem witness_LdiWritesImmediate :
    (at_ 253 []).Fits 3 ∧ BadReg 8 ∧ (at_ 254 [0x82]).run = .running ∧ (at_ 254 [0x82]).byteAt 254 = 0x82 ∧
    (at_ 255 [0x82]).byteAt 255 = 0x82 ∧ (at_ 255 [0x82]).pc.toNat = 255 := by decide

theorem witness_PrnEmitsRegister : (at_ 254 []).Fits 2 ∧ BadReg 255 := by decide

/-- The stack pointer 1 (it pushes to cell 0), 244 and 255; the stack pointer 0. -/
theorem witness_PushStoresBelowStackPointer :
    (at_ 254 []).Fits 2 ∧ (at_ 254 []).mem.wf = true ∧ (at_ 254 []).sp ≠ 0 ∧ ((at_ 0 []).setReg 7 1).sp ≠ 0 ∧
    ((0 : Nat) : Int) = pushAddr ((at_ 0 []).setReg 7 1) ∧ ((254 : Nat) : Int) = pushAddr ((at_ 0 []).setReg 7 255) ∧
    ((at_ 0 []).setReg 7 0).sp = 0 ∧ BadReg 8 := by decide

/-- POP of another register at the stack pointers 254 and 255, and POP R7 of the bytes 254 and 255. -/
theorem witness_PopLoadsAtStackPointer :
    (at_ 254 []).Fits 2 ∧ ((0 : RegIdx) ≠ Config.spIndex) ∧ ((at_ 254 []).setReg 7 254).sp ≠ 255 ∧
    (cell (at_ 0 []) 244 254).byteAt (at_ 0 []).sp.toNat ≠ 255 ∧ ((at_ 0 []).setReg 7 255).sp = 255 ∧
    (cell (at_ 0 []) 244 255).byteAt (cell (at_ 0 []) 244 255).sp.toNat = 255 ∧ BadReg 8 := by decide

theorem witness_PushPopRoundTrip :
    ((at_ 0 []).setReg 7 1).mem.wf = true ∧ ((at_ 0 []).setReg 7 1).sp ≠ 0 ∧ ((0 : RegIdx) ≠ Config.spIndex) ∧
    ((6 : RegIdx) ≠ Config.spIndex) := by decide

/-- The addresses 253 and 254, the stack pointers 1 and 0. -/
theorem witness_CallPushesReturnAddress :
    ((at_ 253 []).setReg 7 1).pc.toNat ≤ 253 ∧ ((at_ 253 []).setReg 7 1).mem.wf = true ∧
    ((at_ 253 []).setReg 7 1).sp ≠ 0 ∧ ((0 : Nat) : Int) = pushAddr ((at_ 253 []).setReg 7 1) ∧
    (at_ 254 []).pc.toNat = 254 ∧ ((at_ 0 []).setReg 7 0).sp = 0 ∧ BadReg 8 := by decide

theorem witness_RetPopsReturnAddress :
    ((at_ 0 []).setReg 7 254).sp ≠ 255 ∧ ((at_ 0 []).setReg 7 255).sp = 255 ∧ (at_ 253 []).pc.toNat ≤ 253 ∧
    (at_ 253 []).mem.wf = true ∧ (at_ 253 []).sp ≠ 0 := by decide

/-- For JeqJumpsOnEqual and JneJumpsOnNotEqual (`JumpRule`): each test true and false, NONE on the untaken side of JEQ
and the taken side of JNE, the untaken jump at 254. -/
theorem witness_jumpRules :
    ((at_ 0 []).setFlag .equal).fl = .equal ∧ ¬ (at_ 254 []).fl = .equal ∧ (at_ 254 []).Fits 2 ∧
    (at_ 0 []).fl ≠ .equal ∧ ¬ ((at_ 254 []).setFlag .equal).fl ≠ .equal ∧ BadReg 8 := by decide

theorem witness_OnlyCmpWritesFlag :
    execWhere (.add 0 1) State.reset (fun _ => true) = true ∧ (∀ a b, Instr.add 0 1 ≠ .cmp a b) ∧
    execWhere (.cmp 0 7) State.reset (fun t => decide (t.fl ≠ State.reset.fl)) = true :=
  ⟨by decide, by simp, by decide⟩

theorem witness_FlagNoneOnlyBeforeCmp :
    (State.reset.setFlag .lessThan).fl ≠ .none ∧ execWhere (.prn 0) (State.reset.setFlag .lessThan) (fun _ => true) = true ∧
    State.reset.fl = .none ∧ (∀ a b, Instr.prn 0 ≠ .cmp a b) ∧ execWhere (.prn 0) State.reset (fun _ => true) = true ∧
    execWhere (.cmp (regByte 0) (regByte 7)) State.reset (fun _ => true) = true :=
  ⟨by decide, by decide, by decide, by simp, by decide, by decide⟩

/-- Two different states that are twins. -/
theorem witness_FlagOrderIsUnobservable :
    FlagTwin (State.reset.setFlag .greaterThan) (State.reset.setFlag .lessThan) ∧
    State.reset.setFlag .greaterThan ≠ State.reset.setFlag .lessThan :=
  ⟨⟨rfl, by decide⟩, by decide⟩

theorem witness_OutputAppendedOnlyByPrn :
    stepsWhere (at_ 0 [0x47, 7]) (fun t => decide (t.out = [244])) = true ∧
    stepsWhere (at_ 0 [0x45, 7]) (fun t => decide (t.out = [])) = true := by decide

theorem witness_RegistersWrittenByTable :
    execWhere (.pop 1) State.reset (fun t => decide (t.reg 7 ≠ State.reset.reg 7)) = true ∧
    mayWriteReg (.pop 1) 0 = false := by decide

/-- A byte that changes, for PUSH and for CALL. -/
theorem witness_MemoryWrittenOnlyByPushAndCall :
    execWhere (.push 7) State.reset (fun t => decide (t.byteAt 243 ≠ State.reset.byteAt 243)) = true ∧
    execWhere (.call 7) State.reset (fun t => decide (t.byteAt 243 ≠ State.reset.byteAt 243)) = true := by decide

/-- The stored byte as the first and as the third byte of a fetch, and at cell 0. -/
theorem witness_StoredByteIsFetchedNext :
    State.reset.mem.wf = true ∧ State.reset.sp ≠ 0 ∧ State.reset.pc.toNat ≤ 253 ∧
    execWhere (.push 0) State.reset (fun t => decide ((243 : Pc).toNat + 0 = t.sp.toNat)) = true ∧
    execWhere (.call 0) State.reset (fun t => decide ((241 : Pc).toNat + 2 = t.sp.toNat)) = true ∧
    execWhere (.push 0) (State.reset.setReg 7 1) (fun t => decide ((0 : Pc).toNat + 0 = t.sp.toNat)) = true := by decide

theorem witness_MemoryContract :
    ((-1 : Int) < 0 ∨ (255 : Int) < -1) ∧ ((256 : Int) < 0 ∨ (255 : Int) < 256) ∧
    ((0 : Int) ≤ 0 ∧ (0 : Int) ≤ 255) ∧ ((0 : Int) ≤ 255 ∧ (255 : Int) ≤ 255) ∧ (256 : Int) ≠ 255 ∧
    (at_ 255 [7]).mem.wf = true := by decide

/-- Two memories built differently. -/
theorem witness_CanonicalMemoriesAreEqual :
    Memory.wf [(0, 1)] = true ∧ Memory.wf (Memory.put [(0, 1), (255, 2)] 255 0) = true ∧
    ∀ a : Nat, a < 256 → Memory.get [(0, 1)] a = Memory.get (Memory.put [(0, 1), (255, 2)] 255 0) a :=
  ⟨by decide, by decide, fun _ _ => rfl⟩

theorem witness_RegisterFileContract :
    (0 : Byte).toNat ≤ 7 ∧ (7 : Byte).toNat ≤ 7 ∧ 7 < (8 : Byte).toNat ∧ 7 < (255 : Byte).toNat := by decide

theorem witness_FaultsArePrecise :
    stepsWhere (at_ 254 [0x50, 1]) (fun t => decide (t.run = .faulted .addressOutOfRange 254)) = true := by decide

/-- A state for each level of 60_exceptions.md R200, POP R7 at both of its outcomes, and no fault; and the two lengths of image. -/
theorem witness_StepFaultsExactlyByCause :
    (at_ 256 []).run = .running ∧ (at_ 256 []).faultCause = some .addressOutOfRange ∧
    State.reset.faultCause = some .illegalInstruction ∧ (at_ 255 [0xA3]).faultCause = some .addressOutOfRange ∧
    (at_ 0 [0xA3, 8, 1]).faultCause = some .addressOutOfRange ∧ (at_ 0 [0xA3, 0, 1]).faultCause = some .divisionByZero ∧
    (at_ 254 [0x50, 0]).faultCause = some .addressOutOfRange ∧
    ((at_ 0 [0x46, 7]).setReg 7 255).faultCause = none ∧
    (cell (at_ 0 [0x46, 7]) 244 255).faultCause = some .addressOutOfRange ∧ (at_ 0 [0xA0, 0, 1]).faultCause = none := by decide

theorem witness_StepKeepsInvariant :
    (at_ 254 [0x45, 0]).Inv ∧ stepsWhere (at_ 254 [0x45, 0]) (fun t => decide (t.pc.toNat = 256)) = true :=
  ⟨⟨rfl, by decide, fun _ _ h => by simp [at_, State.reset, State.resetWith] at h,
    fun _ h => by simp [at_, State.reset, State.resetWith] at h⟩, by decide⟩

/-- The empty image, one of 256 bytes with its last index, and one of 257. -/
theorem witness_LoadPlacesImageOverZeros :
    ([] : List Byte).length ≤ 256 ∧ (List.replicate 256 (1 : Byte)).length ≤ 256 ∧
    255 < (List.replicate 256 (1 : Byte)).length ∧ 256 < (List.replicate 257 (1 : Byte)).length := by
  simp only [List.length_replicate, List.length_nil]
  decide

/-- `pc` at 253, 254, 255 and 256. -/
theorem witness_SnapshotShowsPcBytesAndRegisters :
    (at_ 253 []).pc.toNat + 2 ≤ 255 ∧ 255 < (at_ 254 []).pc.toNat + 2 ∧ (at_ 254 []).pc.toNat + 1 ≤ 255 ∧
    255 < (at_ 255 []).pc.toNat + 1 ∧ (at_ 255 []).pc.toNat ≤ 255 ∧ 255 < (at_ 256 []).pc.toNat := by decide


end Sys2Proof.Machine.Tests
end

/-! ## State: register file, run state, flag and output (10_state.md)

Each invariant is read off `exec_effect`, which says once what an instruction can do. -/

namespace Sys2Proof.Machine

/-! ### Register file and reset -/

/-- A byte of at most 7 is its own register number (10_state.md R24). -/
theorem regIndex_of_le {b : Byte} (h : b.toNat ≤ 7) : ∃ i : RegIdx, i.val = b.toNat ∧ regIndex b = .ok i :=
  ⟨⟨b.toNat, by omega⟩, rfl, dif_pos (by omega)⟩

/-- Settles O43: `regIndex` reads the whole byte, and `set` is the update of one register. -/
theorem registerFileContract : Obligations.RegisterFileContract := by
  refine ⟨fun b => regIndex_of_le, fun b => regIndex_bad, fun s i v => ⟨by simp, fun j hj => ?_⟩⟩
  have hne : i ≠ j := fun h => hj (by simp [h])
  rw [setReg_reg, if_neg hne]

/-- The source's part of the reset state, for any values of the parameters (10_state.md R28, R32). -/
theorem resetWith_sp_pc_run (c : Config) : (State.resetWith c).sp.toNat = 244 ∧ (State.resetWith c).pc.toNat = 0 ∧
    (State.resetWith c).run = .running :=
  ⟨rfl, rfl, rfl⟩

/-- Settles O48: the host's reset is the reset state of this machine's configuration, whatever the state before. -/
theorem resetStackPointerAndPc : Obligations.ResetStackPointerAndPc :=
  ⟨resetWith_sp_pc_run, fun _ => resetWith_sp_pc_run Config.spec⟩

/-! ### Run state -/

/-- What an instruction does to the run state: nothing, HALTED by HLT, or FAULTED at its own `pc`. -/
theorem exec_run {i : Instr} {s t : State} (h : exec i s = .next t) :
    t.run = s.run ∨ (t.run = .halted ∧ i = .hlt) ∨ ∃ k, t.run = .faulted k s.pc := by
  cases exec_effect h with
  | fault k _ ht => exact .inr (.inr ⟨k, by simp [ht]⟩)
  | halt hi ht => exact .inr (.inl ⟨by simp [ht], hi⟩)
  | jump a taken _ ht => exact .inl (by cases taken <;> simp [ht])
  | _ => exact .inl (by simp [*])

/-- The outgoing transitions of RUNNING, under every opcode map (10_state.md R33). -/
theorem stepWith_run {c : Config} {s t : State} (h : stepWith c s = .next t) : s.run = .running ∧
    (t.run = .running ∨ (t.run = .halted ∧ fetchWith c s = .ok .hlt) ∨ ∃ k, t.run = .faulted k s.pc) := by
  obtain ⟨hrun, ⟨k, -, rfl⟩ | ⟨i, hfetch, hexec⟩⟩ := stepWith_next h
  · exact ⟨hrun, .inr (.inr ⟨k, rfl⟩)⟩
  · refine ⟨hrun, ?_⟩
    rcases exec_run hexec with hsame | ⟨hhalt, rfl⟩ | hfault
    · exact .inl (hsame.trans hrun)
    · exact .inr (.inl ⟨hhalt, hfetch⟩)
    · exact .inr (.inr hfault)

/-- The fault record a step leaves names the `pc` the step started at (60_exceptions.md R196). -/
theorem stepWith_faulted_pc {c : Config} {s t : State} {k : FaultKind} {p : Pc} (h : stepWith c s = .next t)
    (ht : t.run = .faulted k p) : p = s.pc := by
  obtain ⟨-, hrun | ⟨hhalt, -⟩ | ⟨k', hfault⟩⟩ := stepWith_run h
  · simp [ht] at hrun
  · simp [ht] at hhalt
  · rw [ht] at hfault
    injection hfault

/-- A machine that is not RUNNING takes no step, so no run gets past its first one (40_dispatch.md R119). -/
theorem core_run_not_running {s : State} (hs : s.run ≠ .running) (n : Nat) (t : State) :
    Sys2Proof.core.run (n + 1) s ≠ .next t := by
  rw [core_run_succ]
  cases hstep : step s with
  | next u => exact absurd (stepWith_next hstep).1 hs
  | fault r => simp
  | refused r => simp

/-- Settles O7: the transitions are those of `stepWith_run`, and a stopped machine has none. -/
theorem runStateTransitions : Obligations.RunStateTransitions := by
  refine ⟨fun s t => stepWith_run, fun s t k p hpc hstep ht => ?_, fun s => core_run_not_running, fun _ => rfl⟩
  rw [stepWith_faulted_pc hstep ht]
  exact hpc

/-! ### Flag -/

/-- A comparison has one of the three outcomes. -/
theorem compareFlag_ne_none (u v : Byte) : compareFlag u v ≠ .none := by
  unfold compareFlag
  split
  · simp
  · split <;> simp

/-- The comparison's outcome is EQUAL exactly on equal bytes (41_alu.md R146). -/
theorem compareFlag_eq_equal (u v : Byte) : compareFlag u v = .equal ↔ u = v := by
  rw [← BitVec.toNat_inj]
  unfold compareFlag
  split
  · simpa
  · split <;> simpa

/-- What an instruction does to the flag: nothing, or a CMP's comparison. -/
theorem exec_fl {i : Instr} {s t : State} (h : exec i s = .next t) :
    t.fl = s.fl ∨ ∃ a b : RegIdx, i = .cmp (regByte a) (regByte b) ∧ t.fl = compareFlag (s.reg a) (s.reg b) := by
  cases exec_effect h with
  | compare a b hi ht => exact .inr ⟨a, b, hi, by simp [ht]⟩
  | jump a taken _ ht => exact .inl (by cases taken <;> simp [ht])
  | _ => exact .inl (by simp [*])

/-- CMP of two registers never faults (41_alu.md R146). -/
theorem exec_cmp_good (a b : RegIdx) (s : State) : exec (.cmp (regByte a) (regByte b)) s =
    .next ((s.setFlag (compareFlag (s.reg a) (s.reg b))).advance 3) :=
  aluTwoRegister_good .cmp a b s

/-- Settles O35: the flag is left alone or holds a comparison's outcome, which is never NONE. -/
theorem flagNoneOnlyBeforeCmp : Obligations.FlagNoneOnlyBeforeCmp := by
  refine ⟨rfl, fun i s t h hs => ?_, fun i s t h hi => ?_, fun a b s t h => ?_⟩
  · rcases exec_fl h with hfl | ⟨a, b, -, hfl⟩
    · rwa [hfl]
    · rw [hfl]
      exact compareFlag_ne_none _ _
  · rcases exec_fl h with hfl | ⟨a, b, hcmp, -⟩
    · exact hfl
    · exact absurd hcmp (hi _ _)
  · obtain rfl : (s.setFlag (compareFlag (s.reg a) (s.reg b))).advance 3 = t := by
      simpa [exec_cmp_good] using h
    exact ⟨compareFlag_ne_none _ _, compareFlag_eq_equal _ _⟩

/-! ### Output -/

/-- What an instruction does to the output: nothing, or PRN's one value. -/
theorem exec_out {i : Instr} {s t : State} (h : exec i s = .next t) :
    t.out = s.out ∨ ∃ r : RegIdx, i = .prn (regByte r) ∧ t.out = s.out ++ [s.reg r] := by
  cases exec_effect h with
  | print r hi ht => exact .inr ⟨r, hi, by simp [ht]⟩
  | jump a taken _ ht => exact .inl (by cases taken <;> simp [ht])
  | _ => exact .inl (by simp [*])

/-- What a step does to the output, under every opcode map (10_state.md R37). -/
theorem stepWith_out {c : Config} {s t : State} (h : stepWith c s = .next t) : t.out = s.out ∨
    ∃ r : RegIdx, fetchWith c s = .ok (.prn (regByte r)) ∧ t.out = s.out ++ [s.reg r] := by
  obtain ⟨-, ⟨k, -, rfl⟩ | ⟨i, hfetch, hexec⟩⟩ := stepWith_next h
  · exact .inl rfl
  · rcases exec_out hexec with hout | ⟨r, rfl, hout⟩
    · exact .inl hout
    · exact .inr ⟨r, hfetch, hout⟩

/-- The state with another output log in its place. -/
def State.withOut (o : List Byte) (s : State) : State := { s with out := o }

section WithOut

variable (o : List Byte) (s : State)

@[simp] theorem withOut_mem : (s.withOut o).mem = s.mem := rfl
@[simp] theorem withOut_regs : (s.withOut o).regs = s.regs := rfl
@[simp] theorem withOut_pc : (s.withOut o).pc = s.pc := rfl
@[simp] theorem withOut_fl : (s.withOut o).fl = s.fl := rfl
@[simp] theorem withOut_run : (s.withOut o).run = s.run := rfl
@[simp] theorem withOut_out : (s.withOut o).out = o := rfl
@[simp] theorem withOut_reg (i : RegIdx) : (s.withOut o).reg i = s.reg i := rfl
@[simp] theorem withOut_sp : (s.withOut o).sp = s.sp := rfl
@[simp] theorem withOut_setReg (i : RegIdx) (v : Byte) : (s.withOut o).setReg i v = (s.setReg i v).withOut o := rfl
@[simp] theorem withOut_setPc (p : Pc) : (s.withOut o).setPc p = (s.setPc p).withOut o := rfl
@[simp] theorem withOut_advance (n : Nat) : (s.withOut o).advance n = (s.advance n).withOut o := rfl
@[simp] theorem withOut_raise (k : FaultKind) : (s.withOut o).raise k = (s.raise k).withOut o := rfl

/-- Emitting appends to whatever log stands there. -/
theorem withOut_emit (v : Byte) : (s.withOut o).emit v = (s.emit v).withOut (o ++ [v]) := rfl

@[simp] theorem memRead_withOut (a : Int) : memRead (s.withOut o) a = memRead s a := rfl
@[simp] theorem pushAddr_withOut : pushAddr (s.withOut o) = pushAddr s := rfl
@[simp] theorem popAddr_withOut : popAddr (s.withOut o) = popAddr s := rfl
@[simp] theorem pushOperand_withOut (a : RegIdx) : pushOperand (s.withOut o) a = pushOperand s a := rfl
@[simp] theorem returnByte_withOut : returnByte (s.withOut o) = returnByte s := rfl
@[simp] theorem fetchWith_withOut (c : Config) : fetchWith c (s.withOut o) = fetchWith c s := rfl

@[simp] theorem writeAluResult_withOut (a : RegIdx) (r : AluResult) :
    writeAluResult (s.withOut o) a r = (writeAluResult s a r).withOut o := by
  cases r <;> rfl

@[simp] theorem memWrite_withOut (a : Int) (v : Byte) :
    memWrite (s.withOut o) a v = State.withOut o <$> memWrite s a v := by
  unfold memWrite
  split <;> rfl

@[simp] theorem pushByte_withOut (v : Byte) : pushByte (s.withOut o) v = State.withOut o <$> pushByte s v := by
  simp [pushByte]

/-- Settling a result with the log replaced replaces the log of what settling answers. -/
theorem settle_withOut {o : List Byte} {s t : State} {r r' : Except FaultKind State} (h : settle s r = .next t)
    (hr : r' = State.withOut o <$> r) : settle (s.withOut o) r' = .next (t.withOut o) := by
  rcases settle_next h with rfl | ⟨k, rfl, rfl⟩ <;> subst hr <;> rfl

end WithOut

section Unread

variable {s t : State} (o : List Byte)

/-- A two-register ALU instruction does not look at the output. -/
theorem aluTwoRegister_withOut {p : AluOp} {a b : Byte} (h : aluTwoRegister p a b s = .next t) :
    aluTwoRegister p a b (s.withOut o) = .next (t.withOut o) :=
  settle_withOut h (by simp)

/-- The one-register ALU instruction does not look at the output. -/
theorem aluOneRegister_withOut {p : AluOp} {a : Byte} (h : aluOneRegister p a s = .next t) :
    aluOneRegister p a (s.withOut o) = .next (t.withOut o) :=
  settle_withOut h (by simp)

/-- A conditional jump does not look at the output. -/
theorem conditionalJump_withOut {taken : Bool} {a : Byte} (h : conditionalJump taken a s = .next t) :
    conditionalJump taken a (s.withOut o) = .next (t.withOut o) :=
  settle_withOut h (by cases taken <;> simp)

/-- No instruction but PRN looks at the output: on another log it does the same and leaves that log. -/
theorem exec_withOut {i : Instr} (hp : ∀ a, i ≠ .prn a) (h : exec i s = .next t) :
    exec i (s.withOut o) = .next (t.withOut o) := by
  cases i with
  | hlt =>
    obtain rfl : { s.advance 1 with run := .halted } = t := by simpa [exec, execHlt] using h
    rfl
  | prn a => exact absurd rfl (hp a)
  | ldi a imm => exact settle_withOut h (by simp)
  | push a => exact settle_withOut h (by simp)
  | pop a => exact settle_withOut h (by simp)
  | call a => exact settle_withOut h (by simp)
  | ret =>
    -- Unfolded first: unification alone would evaluate the address check of the pop's read.
    simp only [exec, execRet] at h ⊢
    exact settle_withOut h (by simp)
  | jeq a => exact conditionalJump_withOut o h
  | jne a => exact conditionalJump_withOut o h
  | not a => exact aluOneRegister_withOut o h
  | _ => exact aluTwoRegister_withOut o h

/-- On another log an instruction does the same and appends the same values to that log. -/
theorem exec_withOut_emitted {i : Instr} (h : exec i s = .next t) :
    exec i (s.withOut o) = .next (t.withOut (o ++ emitted s t)) := by
  by_cases hp : ∃ a, i = .prn a
  · obtain ⟨a, rfl⟩ := hp
    rcases regIndex_cases a with ⟨r, rfl, -⟩ | ⟨ha, -⟩
    · obtain rfl : (s.emit (s.reg r)).advance 2 = t := by simpa [exec, execPrn_good] using h
      simp [exec, execPrn_good, withOut_emit, emitted]
    · obtain rfl : s.raise .addressOutOfRange = t := by simpa [exec, execPrn_bad _ ha] using h
      simp [exec, execPrn_bad _ ha, emitted]
  · have hout : t.out = s.out := (exec_out h).resolve_right fun ⟨r, hi, _⟩ => hp ⟨_, hi⟩
    simpa [emitted, hout] using exec_withOut o (not_exists.mp hp) h

/-- On another log a step does the same and appends the same values to that log, under every opcode map. -/
theorem stepWith_withOut {c : Config} (h : stepWith c s = .next t) :
    stepWith c (s.withOut o) = .next (t.withOut (o ++ emitted s t)) := by
  obtain ⟨hrun, ⟨k, hfetch, rfl⟩ | ⟨i, hfetch, hexec⟩⟩ := stepWith_next h
  · rw [stepWith_raise (s := s.withOut o) hrun hfetch]
    simp [emitted]
  · rw [stepWith_exec (s := s.withOut o) hrun hfetch]
    exact exec_withOut_emitted o hexec

end Unread

/-- Settles O37: only PRN appends, and no step looks at the log it appends to. -/
theorem outputAppendedOnlyByPrn : Obligations.OutputAppendedOnlyByPrn :=
  ⟨rfl, fun _ _ => stepWith_out, fun _ _ o => stepWith_withOut o⟩

end Sys2Proof.Machine

/-! ## Memory: the debug snapshot (20_memory.md) -/

namespace Sys2Proof.Machine

/-- The debug port shows the memory byte at an address of memory (20_memory.md R70). -/
theorem debugByte_of_le (s : State) {a : Nat} (h : a ≤ 255) : debugByte s a = some (s.byteAt a) :=
  if_pos (Nat.lt_succ_of_le h)

/-- The debug port shows no byte at an address beyond memory (20_memory.md R71, decision D21). -/
theorem debugByte_of_lt (s : State) {a : Nat} (h : 255 < a) : debugByte s a = none :=
  if_neg (Nat.not_lt_of_le h)

/-- The snapshot reads neither the flag nor the run state nor the output (20_memory.md R70). -/
theorem snapshot_fl_run_out (s : State) (f : Flag) (r : Run) (o : List Byte) :
    snapshot { s with fl := f, run := r, out := o } = snapshot s :=
  rfl

/-- Settles O51: each of the three bytes is the debug port's reading at `pc`, `pc` + 1 or `pc` + 2. -/
theorem snapshotShowsPcBytesAndRegisters : Obligations.SnapshotShowsPcBytesAndRegisters := fun s =>
  ⟨rfl, fun _ => rfl,
    debugByte_of_le s, debugByte_of_lt s,
    debugByte_of_le s, debugByte_of_lt s,
    debugByte_of_le s, debugByte_of_lt s,
    snapshot_fl_run_out s⟩

end Sys2Proof.Machine

/-! ## Encoding: the opcode bytes and the ALU's select codes (30_encoding.md) -/

namespace Sys2Proof.Machine

/-! ### Opcode bytes -/

/-- The lookup inverts a map of distinct bytes: it answers an operation on that operation's byte alone
(30_encoding.md R85, R88). -/
theorem opOf_eq_some_iff {c : Config} (hc : c.OpcodesDistinct) {b : Byte} {o : Op} :
    c.opOf b = some o ↔ b = c.opcodeMap o := by
  refine ⟨fun h => (opOf_some h).symm, ?_⟩
  rintro rfl
  exact opOf_opcodeMap hc o

/-- The illegal bytes are those outside the column of opcode bytes (30_encoding.md R84, R88). -/
theorem opOf_eq_none_iff {c : Config} {b : Byte} : c.opOf b = none ↔ b ∉ Op.all.map c.opcodeMap := by
  simp [opOf_none, mem_all]

/-- A map of distinct bytes gives no byte twice, so its column of opcodes has no repetition, as numbers. -/
theorem nodup_opcodes {c : Config} (hc : c.OpcodesDistinct) :
    (Op.all.map fun o => (c.opcodeMap o).toNat).Nodup :=
  List.Nodup.map (fun o p h => hc o p (BitVec.eq_of_toNat_eq h)) (by decide)

/-- The legal numbers below 256 are the 21 opcode bytes, in another order. -/
theorem legal_perm_opcodes {c : Config} (hc : c.OpcodesDistinct) :
    ((List.range 256).filter fun n => (c.opOf (BitVec.ofNat 8 n)).isSome).Perm
      (Op.all.map fun o => (c.opcodeMap o).toNat) := by
  refine (List.perm_ext_iff_of_nodup (List.nodup_range.filter _) (nodup_opcodes hc)).mpr fun n => ?_
  simp only [List.mem_filter, List.mem_range, Option.isSome_iff_exists, opOf_eq_some_iff hc, List.mem_map, mem_all,
    true_and]
  constructor
  · rintro ⟨hn, o, ho⟩
    exact ⟨o, by rw [← ho, BitVec.toNat_ofNat, Nat.mod_eq_of_lt hn]⟩
  · rintro ⟨o, rfl⟩
    exact ⟨(c.opcodeMap o).isLt, o, by simp⟩

/-- 256 bytes less 21 opcodes: under every map of distinct bytes, 235 are illegal (30_encoding.md R88). -/
theorem illegal_length {c : Config} (hc : c.OpcodesDistinct) :
    ((List.range 256).filter fun n => (c.opOf (BitVec.ofNat 8 n)).isNone).length = 235 := by
  have hlegal := (legal_perm_opcodes hc).length_eq
  have hsplit := List.length_eq_length_filter_add (l := List.range 256) fun n => (c.opOf (BitVec.ofNat 8 n)).isSome
  simp only [Option.not_isSome, List.length_range] at hsplit
  simp only [List.length_map, show Op.all.length = 21 from rfl] at hlegal
  omega

/-- An illegal byte at `pc` raises whatever stands after it: no operand is read (40_dispatch.md R112). -/
theorem fetchWith_illegal {c : Config} {s : State} (hpc : s.pc.toNat ≤ 255)
    (hop : c.opOf (s.byteAt s.pc.toNat) = none) : fetchWith c s = .error .illegalInstruction := by
  rcases fetchWith_cases c s with ⟨hout, -⟩ | ⟨-, -, hfetch⟩ | ⟨o, -, hsome, -⟩
  · omega
  · exact hfetch
  · simp [hop] at hsome

/-- Settles O4: the lookup inverts the 21 distinct bytes of the table, and a fetch of any other byte raises. -/
theorem illegalOpcodesRaise : Obligations.IllegalOpcodesRaise := by
  have hnone (b : Byte) : Config.spec.opOf b = none ↔ b ∉ Op.all.map opcodeByte := opOf_eq_none_iff
  refine ⟨fun b o => opOf_eq_some_iff spec_opcodesDistinct, hnone, illegal_length spec_opcodesDistinct, ?_,
    fun s hrun hpc hop => ?_⟩
  · simp only [hnone]
    decide
  · exact ⟨_, stepWith_raise hrun (fetchWith_illegal hpc hop), raise_faultEntered s _, debugByte_of_le _ hpc⟩

/-! ### ALU select codes -/

/-- The four select codes of no operation (30_encoding.md R87). -/
theorem ofSelect_eq_none_iff (sel : BitVec 4) :
    AluOp.ofSelect sel = none ↔ sel ∈ [(0b0101 : BitVec 4), 0b0110, 0b1110, 0b1111] := by
  revert sel
  decide

/-- The ALU block answers UnsupportedAluOperation by its select code alone, whatever the inputs: the error of a
supported operation is a zero divisor (30_encoding.md R87, 60_exceptions.md R194). -/
theorem alu_eq_unsupported_iff (sel : BitVec 4) (u v : Byte) :
    alu sel u v = .error .unsupportedAluOperation ↔ AluOp.ofSelect sel = none := by
  cases hsel : AluOp.ofSelect sel with
  | none => simp [alu, hsel]
  | some o =>
    simp only [alu, hsel, reduceCtorEq, iff_false]
    intro herr
    exact absurd (aluCompute_error herr).1 (by decide)

/-- No instruction enters UnsupportedAluOperation: a state that records it was left so by its predecessor
(60_exceptions.md R194). -/
theorem exec_unsupported {i : Instr} {s t : State} {p : Pc} (h : exec i s = .next t)
    (ht : t.run = .faulted .unsupportedAluOperation p) : s.run = .faulted .unsupportedAluOperation p := by
  cases exec_effect h with
  | fault k hk hraise =>
    simp only [hraise, raise_run, Run.faulted.injEq] at ht
    exact absurd ht.1 hk
  | halt _ hhalt => simp [hhalt] at ht
  | jump a taken _ hjump => cases taken <;> simpa [hjump] using ht
  | _ => simpa [*] using ht

/-- Settles O23: the codes are the table's, the four unused ones are those `ofSelect` does not know, and `exec_effect`
has no effect that enters the fault. -/
theorem aluSelectCodes : Obligations.AluSelectCodes :=
  ⟨by decide, select_is_low_bits,
    fun sel u v => (alu_eq_unsupported_iff sel u v).trans (ofSelect_eq_none_iff sel),
    fun _ _ _ _ => exec_unsupported⟩

end Sys2Proof.Machine

/-! ## Dispatch: fetching at the end of memory (40_dispatch.md)

`fetchWith_cases` lists what a fetch can answer; where `pc` and the length stand decides which case it is. -/

namespace Sys2Proof.Machine

/-- Every instruction has an opcode byte (30_encoding.md R80). -/
theorem op_length_pos (o : Op) : 0 < o.length :=
  Nat.succ_pos _

section Fetch

variable {c : Config} {s : State} {o : Op}

/-- No opcode byte can be read beyond memory (40_dispatch.md R111). -/
theorem fetchWith_pc_outside (hpc : 255 < s.pc.toNat) : fetchWith c s = .error .addressOutOfRange := by
  rcases fetchWith_cases c s with ⟨-, hfetch⟩ | ⟨hin, -⟩ | ⟨_, hin, -⟩
  · exact hfetch
  · omega
  · omega

/-- Of an instruction whose opcode byte is read, the place of its last byte alone decides the fetch. -/
theorem fetchWith_known (hpc : s.pc.toNat ≤ 255) (hop : c.opOf (s.byteAt s.pc.toNat) = some o) :
    (256 < s.pc.toNat + o.length ∧ fetchWith c s = .error .addressOutOfRange) ∨
    (s.Fits o.length ∧
      fetchWith c s = .ok (o.assemble (s.byteAt (s.pc.toNat + 1)) (s.byteAt (s.pc.toNat + 2)))) := by
  rcases fetchWith_cases c s with ⟨hout, -⟩ | ⟨-, hnone, -⟩ | ⟨p, -, hsome, hfetch⟩
  · omega
  · simp [hop] at hnone
  · obtain rfl : o = p := Option.some.inj (hop.symm.trans hsome)
    exact hfetch

/-- An instruction that runs past the end of memory raises; its operand addresses do not wrap (40_dispatch.md R113). -/
theorem fetchWith_past_end (hpc : s.pc.toNat ≤ 255) (hop : c.opOf (s.byteAt s.pc.toNat) = some o)
    (hend : 256 < s.pc.toNat + o.length) : fetchWith c s = .error .addressOutOfRange := by
  rcases fetchWith_known hpc hop with ⟨-, hfetch⟩ | ⟨hfits, -⟩
  · exact hfetch
  · omega

/-- An instruction inside memory is fetched with the bytes that follow its opcode byte (40_dispatch.md R113). -/
theorem fetchWith_fits (hop : c.opOf (s.byteAt s.pc.toNat) = some o) (hfits : s.Fits o.length) :
    fetchWith c s = .ok (o.assemble (s.byteAt (s.pc.toNat + 1)) (s.byteAt (s.pc.toNat + 2))) := by
  have hpos := op_length_pos o
  rcases fetchWith_known (by omega) hop with ⟨hend, -⟩ | ⟨-, hfetch⟩
  · omega
  · exact hfetch

end Fetch

/-- A fetch that raises is the step's fault entry (40_dispatch.md R110, 60_exceptions.md R196). -/
theorem stepRaises_of_fetch_error {s : State} {k : FaultKind} (hrun : s.run = .running)
    (hfetch : fetchWith Config.spec s = .error k) : StepRaises s k :=
  ⟨s.raise k, stepWith_raise hrun hfetch, raise_faultEntered s k⟩

/-- Settles O6: the two faulting clauses are a fetch from outside memory and one past its end; the third is the fetch
of an instruction that fits. -/
theorem fetchPastMemoryRaises : Obligations.FetchPastMemoryRaises := by
  refine ⟨fun s hrun hpc => ?_, fun s o hrun hpc hop hlen => ?_, fun s o hrun hop hfits => ?_⟩
  · exact stepRaises_of_fetch_error hrun (fetchWith_pc_outside (by omega))
  · exact stepRaises_of_fetch_error hrun (fetchWith_past_end hpc hop (by omega))
  · exact stepWith_exec hrun (fetchWith_fits hop hfits)

end Sys2Proof.Machine

/-! ## ALU instructions (41_alu.md)

An instruction's rule is the shared behaviour of its format, stated once for every ALU operation, and the number its
operation computes. -/

namespace Sys2Proof.Machine

/-! ### What each operation computes -/

/-- On the inputs `u` and `v` the operation delivers a register value, and that value is the number `n`. -/
def AluOp.Computes (o : AluOp) (u v : Byte) (n : Nat) : Prop :=
  ∃ w : Byte, aluCompute o u v = .ok (.value w) ∧ w.toNat = n

/-- `trunc8` of an integer whose remainder modulo 256 is a known number is that number. -/
theorem trunc8_toNat_of_emod {z : Int} {n : Nat} (h : z % 256 = n) : (trunc8 z).toNat = n := by
  have := trunc8_toNat z
  omega

/-- `trunc8` keeps a number that fits into a register. -/
theorem trunc8_natCast_toNat_of_lt {n : Nat} (h : n < 256) : (trunc8 (n : Int)).toNat = n := by
  rw [trunc8_natCast_toNat, Nat.mod_eq_of_lt h]

/-- The rounding of the quotient cannot be seen on unsigned operands (41_alu.md R138, decision D2). -/
theorem quotient_eq_natCast (r : DivRound) (u v : Byte) : quotient r u v = ((u.toNat / v.toNat : Nat) : Int) := by
  cases r with
  | floor => exact (Int.ofNat_fdiv _ _).symm
  | truncate => exact (Int.ofNat_tdiv _ _).symm

section Computes

variable (u v : Byte)

theorem add_computes : AluOp.add.Computes u v ((u.toNat + v.toNat) % 256) :=
  ⟨_, rfl, trunc8_natCast_toNat (u.toNat + v.toNat)⟩

theorem sub_computes : AluOp.sub.Computes u v ((u.toNat + 256 - v.toNat) % 256) := by
  have hv := v.isLt
  exact ⟨_, rfl, trunc8_toNat_of_emod (by omega)⟩

theorem mul_computes : AluOp.mul.Computes u v (u.toNat * v.toNat % 256) := by
  refine ⟨_, rfl, ?_⟩
  rw [← Nat.cast_mul, trunc8_natCast_toNat]

theorem and_computes : AluOp.and.Computes u v (u.toNat &&& v.toNat) :=
  ⟨_, rfl, BitVec.toNat_and ..⟩

theorem or_computes : AluOp.or.Computes u v (u.toNat ||| v.toNat) :=
  ⟨_, rfl, BitVec.toNat_or ..⟩

theorem xor_computes : AluOp.xor.Computes u v (u.toNat ^^^ v.toNat) :=
  ⟨_, rfl, BitVec.toNat_xor ..⟩

theorem not_computes : AluOp.not.Computes u v (255 - u.toNat) := by
  have hu := u.isLt
  exact ⟨_, rfl, trunc8_toNat_of_emod (by omega)⟩

theorem shl_computes : AluOp.shl.Computes u v (u.toNat * 2 ^ v.toNat % 256) := by
  refine ⟨_, rfl, ?_⟩
  rw [← trunc8_natCast_toNat]
  push_cast
  rfl

theorem shr_computes : AluOp.shr.Computes u v (u.toNat / 2 ^ v.toNat) := by
  refine ⟨_, rfl, ?_⟩
  rw [← trunc8_natCast_toNat_of_lt (Nat.lt_of_le_of_lt (Nat.div_le_self _ _) u.isLt)]
  push_cast
  rfl

variable {v}

theorem div_computes (hv : v ≠ 0) : AluOp.div.Computes u v (u.toNat / v.toNat) := by
  have hne : v.toNat ≠ 0 := BitVec.toNat_ne_iff_ne.mpr hv
  refine ⟨trunc8 ((u.toNat / v.toNat : Nat) : Int), ?_,
    trunc8_natCast_toNat_of_lt (Nat.lt_of_le_of_lt (Nat.div_le_self _ _) u.isLt)⟩
  rw [aluCompute, aluDiv, if_neg hne, quotient_eq_natCast]
  rfl

theorem mod_computes (hv : v ≠ 0) : AluOp.mod.Computes u v (u.toNat % v.toNat) := by
  have hne : v.toNat ≠ 0 := BitVec.toNat_ne_iff_ne.mpr hv
  have hrem : (u.toNat : Int) - v.toNat * quotient .floor u v = ((u.toNat % v.toNat : Nat) : Int) := by
    rw [quotient_eq_natCast, Int.natCast_mod, Int.emod_def, Int.natCast_div]
  refine ⟨trunc8 ((u.toNat % v.toNat : Nat) : Int), ?_,
    trunc8_natCast_toNat_of_lt (Nat.lt_of_le_of_lt (Nat.mod_le _ _) u.isLt)⟩
  rw [aluCompute, aluMod, if_neg hne, hrem]
  rfl

end Computes

/-! ### What each format does with it -/

/-- A register write and an advance within memory change that register and `pc`, nothing else. -/
theorem plainFrame_setReg_advance {s : State} {n : Nat} (a : RegIdx) (w : Byte) (hfits : s.Fits n) :
    PlainFrame [a] n s ((s.setReg a w).advance n) := by
  refine ⟨fun i hi => ?_, advance_toNat hfits, rfl, rfl, rfl, fun _ => rfl⟩
  have hne : a ≠ i := fun h => hi (by simp [h])
  rw [advance_reg, setReg_reg, if_neg hne]

/-- An instruction whose execution is fault entry raises. -/
theorem raises_of_exec {i : Instr} {s : State} {k : FaultKind} (h : exec i s = .next (s.raise k)) : Raises i s k :=
  ⟨_, h, raise_faultEntered s k⟩

/-- A two-register instruction writes what its operation computes of the two registers, and advances by 3 (41_alu.md
R133). -/
theorem aluTwoRegister_computes {o : AluOp} {a b : RegIdx} {s : State} {n : Nat}
    (h : o.Computes (s.reg a) (s.reg b) n) :
    ∃ w : Byte, w.toNat = n ∧ aluTwoRegister o (regByte a) (regByte b) s = .next ((s.setReg a w).advance 3) := by
  obtain ⟨w, hw, hn⟩ := h
  refine ⟨w, hn, ?_⟩
  rw [aluTwoRegister_good, hw]
  rfl

/-- The one-register instruction writes what its operation computes of the register, and advances by 2 (41_alu.md
R133). -/
theorem aluOneRegister_computes {o : AluOp} {a : RegIdx} {s : State} {n : Nat}
    (h : o.Computes (s.reg a) (s.reg a) n) :
    ∃ w : Byte, w.toNat = n ∧ aluOneRegister o (regByte a) s = .next ((s.setReg a w).advance 2) := by
  obtain ⟨w, hw, hn⟩ := h
  refine ⟨w, hn, ?_⟩
  rw [aluOneRegister_good, hw]
  rfl

section TwoRegister

variable {ins : Byte → Byte → Instr} {o : AluOp} {opcode : Byte} {value : Nat → Nat → Nat}

/-- A completing two-register instruction: the first register holds the computed number, the rest is the frame. -/
theorem exec_twoRegister_frame (hexec : ∀ a b s, exec (ins a b) s = aluTwoRegister o a b s) {a b : RegIdx} {s : State}
    {n : Nat} (hfits : s.Fits 3) (h : o.Computes (s.reg a) (s.reg b) n) :
    ∃ t, exec (ins (regByte a) (regByte b)) s = .next t ∧ (t.reg a).toNat = n ∧ PlainFrame [a] 3 s t := by
  obtain ⟨w, rfl, hnext⟩ := aluTwoRegister_computes h
  exact ⟨_, (hexec _ _ s).trans hnext, by simp, plainFrame_setReg_advance a w hfits⟩

/-- A two-register instruction checks both indices before anything else (41_alu.md R133). -/
theorem exec_twoRegister_bad (hexec : ∀ a b s, exec (ins a b) s = aluTwoRegister o a b s) (a b : Byte) (s : State)
    (h : BadReg a ∨ BadReg b) : Raises (ins a b) s .addressOutOfRange :=
  raises_of_exec ((hexec a b s).trans (aluTwoRegister_bad o s h))

/-- An operation that computes `value` of every two inputs makes its instruction follow the two-register rule. -/
theorem twoRegisterRule_of_computes (hexec : ∀ a b s, exec (ins a b) s = aluTwoRegister o a b s)
    (hencode : ∀ a b, encode (ins a b) = [opcode, a, b])
    (hvalue : ∀ u v : Byte, o.Computes u v (value u.toNat v.toNat)) : TwoRegisterRule ins opcode value :=
  ⟨hencode, fun _ _ _ hfits => exec_twoRegister_frame hexec hfits (hvalue _ _), exec_twoRegister_bad hexec⟩

/-- An operation that computes `value` for every divisor but 0, and there raises, makes its instruction follow the
divisor rule. -/
theorem divisorRule_of_computes (hexec : ∀ a b s, exec (ins a b) s = aluTwoRegister o a b s)
    (hencode : ∀ a b, encode (ins a b) = [opcode, a, b])
    (hvalue : ∀ u v : Byte, v ≠ 0 → o.Computes u v (value u.toNat v.toNat))
    (hzero : ∀ u : Byte, aluCompute o u 0 = .error .divisionByZero) : DivisorRule ins opcode value := by
  refine ⟨hencode, fun a b s hfits hb => exec_twoRegister_frame hexec hfits (hvalue _ _ hb), fun a b s hb => ?_,
    exec_twoRegister_bad hexec⟩
  refine raises_of_exec ((hexec _ _ s).trans ?_)
  rw [aluTwoRegister_good, hb, hzero]
  rfl

end TwoRegister

/-! ### Sum, difference and product -/

/-- Settles O10: `add_computes` in the two-register format. -/
theorem addWritesSumModulo256 : Obligations.AddWritesSumModulo256 :=
  twoRegisterRule_of_computes (fun _ _ _ => rfl) (fun _ _ => rfl) add_computes

/-- ADD then SUB of two different registers restores the first: the second still holds what was added, and the two
wraps cancel (41_alu.md R136). -/
theorem exec_add_sub_restores {a b : RegIdx} (hab : a ≠ b) (s : State) :
    ∃ t u, exec (.add (regByte a) (regByte b)) s = .next t ∧ exec (.sub (regByte a) (regByte b)) t = .next u ∧
      ∀ r, u.reg r = s.reg r := by
  obtain ⟨w, hw, hadd⟩ := aluTwoRegister_computes (add_computes (s.reg a) (s.reg b))
  obtain ⟨x, hx, hsub⟩ := aluTwoRegister_computes
    (sub_computes (((s.setReg a w).advance 3).reg a) (((s.setReg a w).advance 3).reg b))
  have hrestored : x = s.reg a := by
    have ha := (s.reg a).isLt
    have hb := (s.reg b).isLt
    simp only [advance_reg, setReg_reg, if_true, if_neg hab] at hx
    exact BitVec.eq_of_toNat_eq (by omega)
  refine ⟨_, _, hadd, hsub, fun r => ?_⟩
  by_cases hr : a = r
  · subst hr
    simp [hrestored]
  · simp [hr]

/-- Settles O11: `sub_computes` in the two-register format, and `exec_add_sub_restores`. -/
theorem subWritesDifferenceModulo256 : Obligations.SubWritesDifferenceModulo256 :=
  ⟨twoRegisterRule_of_computes (fun _ _ _ => rfl) (fun _ _ => rfl) sub_computes,
    fun _ _ s hab => exec_add_sub_restores hab s⟩

/-- Settles O12: `mul_computes` in the two-register format. -/
theorem mulWritesProductModulo256 : Obligations.MulWritesProductModulo256 :=
  twoRegisterRule_of_computes (fun _ _ _ => rfl) (fun _ _ => rfl) mul_computes

/-! ### Quotient and remainder -/

/-- Settles O13: `div_computes` in the divisor format, and both roundings are the quotient of the numbers. -/
theorem divWritesFloorQuotient : Obligations.DivWritesFloorQuotient :=
  ⟨divisorRule_of_computes (fun _ _ _ => rfl) (fun _ _ => rfl) (fun u _ => div_computes u) (fun _ => rfl),
    fun u v _ => (quotient_eq_natCast .floor u v).trans (quotient_eq_natCast .truncate u v).symm⟩

/-- The dividend is the divisor times DIV's result plus MOD's (41_alu.md R139). -/
theorem exec_div_mod_dividend {a b : RegIdx} {s : State} (hb : s.reg b ≠ 0) :
    ∃ t u, exec (.div (regByte a) (regByte b)) s = .next t ∧ exec (.mod (regByte a) (regByte b)) s = .next u ∧
      (s.reg a).toNat = (s.reg b).toNat * (t.reg a).toNat + (u.reg a).toNat := by
  obtain ⟨q, hq, hdiv⟩ := aluTwoRegister_computes (div_computes (s.reg a) hb)
  obtain ⟨r, hr, hmod⟩ := aluTwoRegister_computes (mod_computes (s.reg a) hb)
  refine ⟨_, _, hdiv, hmod, ?_⟩
  simp only [advance_reg, setReg_reg, if_true, hq, hr]
  exact (Nat.div_add_mod _ _).symm

/-- Settles O14: `mod_computes` in the divisor format, and `exec_div_mod_dividend`. -/
theorem modWritesRemainder : Obligations.ModWritesRemainder :=
  ⟨divisorRule_of_computes (fun _ _ _ => rfl) (fun _ _ => rfl) (fun u _ => mod_computes u) (fun _ => rfl),
    fun _ _ _ => exec_div_mod_dividend⟩

/-! ### Bitwise operations -/

/-- Settles O15: `and_computes` in the two-register format. -/
theorem andWritesBitwiseAnd : Obligations.AndWritesBitwiseAnd :=
  twoRegisterRule_of_computes (fun _ _ _ => rfl) (fun _ _ => rfl) and_computes

/-- Settles O16: `or_computes` in the two-register format. -/
theorem orWritesBitwiseOr : Obligations.OrWritesBitwiseOr :=
  twoRegisterRule_of_computes (fun _ _ _ => rfl) (fun _ _ => rfl) or_computes

/-- Settles O17: `xor_computes` in the two-register format. -/
theorem xorWritesBitwiseXor : Obligations.XorWritesBitwiseXor :=
  twoRegisterRule_of_computes (fun _ _ _ => rfl) (fun _ _ => rfl) xor_computes

/-- Settles O18: `not_computes` in the one-register format. -/
theorem notWritesComplement : Obligations.NotWritesComplement := by
  refine ⟨fun _ => rfl, fun a s hfits => ?_, fun a s ha => raises_of_exec (aluOneRegister_bad .not s ha)⟩
  obtain ⟨w, hw, hnext⟩ := aluOneRegister_computes (not_computes (s.reg a) (s.reg a))
  exact ⟨_, hnext, by simpa using hw, plainFrame_setReg_advance a w hfits⟩

/-! ### Shifts -/

/-- From count 8 on every bit of a byte has left at bit 7 (41_alu.md R144). -/
theorem shl_computes_zero (u : Byte) {v : Byte} (hv : 8 ≤ v.toNat) : AluOp.shl.Computes u v 0 := by
  have hdvd : 256 ∣ u.toNat * 2 ^ v.toNat := Dvd.dvd.mul_left (pow_dvd_pow 2 hv) _
  simpa only [Nat.mod_eq_zero_of_dvd hdvd] using shl_computes u v

/-- From count 8 on every bit of a byte has left at bit 0 (41_alu.md R145). -/
theorem shr_computes_zero (u : Byte) {v : Byte} (hv : 8 ≤ v.toNat) : AluOp.shr.Computes u v 0 := by
  have hlt : u.toNat < 2 ^ v.toNat := u.isLt.trans_le (Nat.pow_le_pow_right two_pos hv)
  simpa only [Nat.div_eq_of_lt hlt] using shr_computes u v

/-- An operation that computes 0 clears the first register, wherever the instruction stands. -/
theorem aluTwoRegister_computes_zero {o : AluOp} {a b : RegIdx} {s : State} (h : o.Computes (s.reg a) (s.reg b) 0) :
    ∃ t, aluTwoRegister o (regByte a) (regByte b) s = .next t ∧ t.reg a = 0 := by
  obtain ⟨w, hw, hnext⟩ := aluTwoRegister_computes h
  obtain rfl : w = 0 := BitVec.eq_of_toNat_eq hw
  exact ⟨_, hnext, by simp⟩

/-- Settles O19: `shl_computes` in the two-register format, and `shl_computes_zero`. -/
theorem shlShiftsByWholeCount : Obligations.ShlShiftsByWholeCount :=
  ⟨twoRegisterRule_of_computes (fun _ _ _ => rfl) (fun _ _ => rfl) shl_computes,
    fun _ _ _ hcount => aluTwoRegister_computes_zero (shl_computes_zero _ hcount)⟩

/-- Settles O20: `shr_computes` in the two-register format, and `shr_computes_zero`. -/
theorem shrShiftsByWholeCount : Obligations.ShrShiftsByWholeCount :=
  ⟨twoRegisterRule_of_computes (fun _ _ _ => rfl) (fun _ _ => rfl) shr_computes,
    fun _ _ _ hcount => aluTwoRegister_computes_zero (shr_computes_zero _ hcount)⟩

/-! ### The flag -/

/-- CMP writes no register, whether it completes or faults (41_alu.md R134, R146). -/
theorem exec_cmp_regs {a b : Byte} {s t : State} (h : exec (.cmp a b) s = .next t) : RegsSameBut [] s t := by
  rcases aluTwoRegister_cases h with ⟨i, j, r, -, -, hr, rfl⟩ | ⟨k, rfl, -⟩
  · obtain ⟨-, rfl⟩ | ⟨hne, -⟩ := aluCompute_ok hr
    · exact fun _ _ => rfl
    · exact absurd rfl hne
  · exact fun _ _ => rfl

/-- Settles O34: what `flagNoneOnlyBeforeCmp` says of the flag, and a CMP changes no register. -/
theorem onlyCmpWritesFlag : Obligations.OnlyCmpWritesFlag := by
  obtain ⟨-, -, hkeep, -⟩ := flagNoneOnlyBeforeCmp
  refine fun i s t h => ⟨hkeep i s t h, ?_⟩
  rintro a b rfl
  exact exec_cmp_regs h

end Sys2Proof.Machine

/-! ## HLT, LDI, PRN (42_load_print_halt.md)

Each completing instruction is one equation for `exec`; its frame is read off the updates the equation names. -/

namespace Sys2Proof.Machine

/-! ### HLT -/

/-- HLT stops the machine past its own byte, and nothing else (42_load_print_halt.md R160). -/
theorem exec_hlt (s : State) : exec .hlt s = .next { s.advance 1 with run := .halted } := rfl

/-- A machine that is not RUNNING has no next state (40_dispatch.md R119). -/
theorem step_not_running {s : State} (hs : s.run ≠ .running) (t : State) : step s ≠ .next t :=
  fun hstep => hs (stepWith_next hstep).1

/-- An instruction that leaves the machine HALTED found it so or is HLT (42_load_print_halt.md R160). -/
theorem eq_hlt_of_exec_halted {i : Instr} {s t : State} (h : exec i s = .next t) (ht : t.run = .halted) :
    s.run = .halted ∨ i = .hlt := by
  rcases exec_run h with hsame | ⟨-, hhlt⟩ | ⟨k, hfault⟩
  · exact .inl (hsame.symm.trans ht)
  · exact .inr hhlt
  · simp [ht] at hfault

/-- Settles O24: `exec_hlt` gives the state HLT leaves, and the halted machine takes no step. -/
theorem hltHaltsAndAdvances : Obligations.HltHaltsAndAdvances := by
  refine ⟨rfl, fun s hfits => ⟨_, exec_hlt s, rfl, rfl, ?_, fun _ _ => rfl, rfl, rfl, fun _ => rfl, ?_⟩,
    fun i s t => eq_hlt_of_exec_halted⟩
  · exact advance_toNat hfits
  · exact step_not_running (by simp)

/-! ### LDI -/

/-- LDI writes its immediate and advances by 3 (42_load_print_halt.md R161). -/
theorem exec_ldi_good (a : RegIdx) (imm : Byte) (s : State) :
    exec (.ldi (regByte a) imm) s = .next ((s.setReg a imm).advance 3) :=
  execLdi_good a imm s

/-- The byte of LDI, at which its fetch begins (30_encoding.md R84). -/
theorem opOf_ldi : Config.spec.opOf 0x82 = some .ldi :=
  opOf_opcodeMap spec_opcodesDistinct .ldi

/-- Settles O25: `exec_ldi_good`; an LDI at 254 or 255 is an instruction past the end of memory. -/
theorem ldiWritesImmediate : Obligations.LdiWritesImmediate := by
  refine ⟨fun _ _ => rfl, fun a imm s hfits => ⟨_, exec_ldi_good a imm s, ?_, ?_⟩,
    fun a imm s ha => raises_of_exec (execLdi_bad imm s ha), fun s hrun hbyte hpc => ?_⟩
  · simp
  · exact plainFrame_setReg_advance a imm hfits
  · have hop : Config.spec.opOf (s.byteAt s.pc.toNat) = some .ldi := by rw [hbyte, opOf_ldi]
    have hlen : Op.length .ldi = 3 := rfl
    exact stepRaises_of_fetch_error hrun (fetchWith_past_end (by omega) hop (by omega))

/-! ### PRN -/

/-- PRN emits the register's value and advances by 2 (42_load_print_halt.md R162). -/
theorem exec_prn_good (a : RegIdx) (s : State) :
    exec (.prn (regByte a)) s = .next ((s.emit (s.reg a)).advance 2) :=
  execPrn_good a s

/-- The output ports show exactly what was appended to the output (10_state.md R37, R40). -/
theorem emitted_of_out_eq_append {s t : State} {vs : List Byte} (h : t.out = s.out ++ vs) : emitted s t = vs := by
  rw [emitted, h, List.drop_left]

/-- Settles O26: `exec_prn_good`, and a bad index is fault entry, which emits nothing. -/
theorem prnEmitsRegister : Obligations.PrnEmitsRegister := by
  refine ⟨fun _ => rfl, fun a s hfits => ⟨_, exec_prn_good a s, rfl, ?_, fun _ _ => rfl, ?_, rfl, rfl, fun _ => rfl⟩,
    fun a s ha => raises_of_exec (execPrn_bad s ha)⟩
  · exact emitted_of_out_eq_append rfl
  · exact advance_toNat (s := s.emit (s.reg a)) hfits

end Sys2Proof.Machine

/-! ## Control transfer (44_control_transfer.md)

The return law follows from what CALL and RET each do; JEQ and JNE are one conditional jump with opposite tests. -/

namespace Sys2Proof.Machine

/-! ### RET and the return law -/

/-- A register write and a jump change that one register. -/
theorem regsSameBut_setReg_setPc (s : State) (a : RegIdx) (v : Byte) (p : Pc) :
    RegsSameBut [a] s ((s.setReg a v).setPc p) := fun i hi => by
  have hne : a ≠ i := fun h => hi (by simp [h])
  rw [setPc_reg, setReg_reg, if_neg hne]

/-- No byte is above 255. -/
theorem ne_255_of_toNat_lt {v w : Byte} (h : v.toNat < w.toNat) : v ≠ 255 := by
  bv_omega

/-- RET with a stack pointer other than 255 pops `pc` and moves the stack pointer up by 1; nothing else changes
(44_control_transfer.md R181). -/
theorem exec_ret_pops {s : State} (hsp : s.sp ≠ 255) : ∃ t, exec .ret s = .next t ∧
    t.pc.toNat = (s.byteAt s.sp.toNat).toNat ∧ t.sp.toNat = s.sp.toNat + 1 ∧ RegsSameBut [Config.spIndex] s t ∧
    t.fl = s.fl ∧ t.run = s.run ∧ t.out = s.out ∧ MemorySame s t := by
  obtain ⟨h255, -⟩ | ⟨w, hw, hnext⟩ := execRet_cases s
  · exact absurd h255 hsp
  · exact ⟨_, hnext, zextPc_toNat _, by simpa using hw, regsSameBut_setReg_setPc s _ _ _, rfl, rfl, rfl, fun _ => rfl⟩

/-- RET with the stack pointer 255 is fault entry (44_control_transfer.md R181, decision D11). -/
theorem exec_ret_fault {s : State} (hsp : s.sp = 255) : exec .ret s = .next (s.raise .addressOutOfRange) := by
  obtain ⟨-, hfault⟩ | ⟨w, hw, -⟩ := execRet_cases s
  · exact hfault
  · exact absurd hsp (ne_255_of_toNat_lt (w := w) (by omega))

/-- A completing CALL leaves the return address at the stack pointer, which moved down by 1, and every other register
alone (44_control_transfer.md R180). -/
theorem exec_call_pushes (a : RegIdx) {s : State} (hpc : s.pc.toNat ≤ 253) (hmem : s.mem.wf = true) (hsp : s.sp ≠ 0) :
    ∃ t, exec (.call (regByte a)) s = .next t ∧ (t.byteAt t.sp.toNat).toNat = s.pc.toNat + 2 ∧
      t.sp.toNat + 1 = s.sp.toNat ∧ RegsSameBut [Config.spIndex] s t := by
  obtain ⟨h0 | hend, -⟩ | ⟨c, r, hc, -, hr, hnext⟩ := execCall_good a s
  · exact absurd h0 hsp
  · omega
  · refine ⟨_, hnext, ?_, by simpa using hc, regsSameBut_setReg_setPc _ _ _ _⟩
    have hread : (s.mem.put c.toNat r).get c.toNat = r := get_put_same hmem c.toNat r
    simpa [State.byteAt, hread] using hr

/-- CALL then RET resumes after the CALL with every register as before: RET pops what CALL pushed, and the stack pointer
moves down by 1 and up again. -/
theorem exec_call_ret_resumes (a : RegIdx) {s : State} (hpc : s.pc.toNat ≤ 253) (hmem : s.mem.wf = true)
    (hsp : s.sp ≠ 0) : ∃ t u, exec (.call (regByte a)) s = .next t ∧ exec .ret t = .next u ∧
      u.pc.toNat = s.pc.toNat + 2 ∧ ∀ r, u.reg r = s.reg r := by
  obtain ⟨t, hcall, hpushed, hdown, hregs⟩ := exec_call_pushes a hpc hmem hsp
  have htsp : t.sp ≠ 255 := ne_255_of_toNat_lt (w := s.sp) (by omega)
  obtain ⟨u, hret, hpopped, hup, hregs', -⟩ := exec_ret_pops htsp
  refine ⟨t, u, hcall, hret, hpopped.trans hpushed, fun r => ?_⟩
  by_cases hr : r ∈ [Config.spIndex]
  · obtain rfl : r = Config.spIndex := List.mem_singleton.mp hr
    exact BitVec.eq_of_toNat_eq (hup.trans hdown)
  · exact (hregs' r hr).trans (hregs r hr)

/-- Settles O31: `exec_ret_pops`, `exec_ret_fault` and `exec_call_ret_resumes`. -/
theorem retPopsReturnAddress : Obligations.RetPopsReturnAddress :=
  ⟨rfl, fun _ => exec_ret_pops, fun _ hsp => raises_of_exec (exec_ret_fault hsp),
    fun a _ => exec_call_ret_resumes a⟩

/-! ### Conditional jumps -/

/-- Setting `pc` is all a jump does. -/
theorem jumpFrame_setPc (s : State) (p : Pc) : JumpFrame s (s.setPc p) :=
  ⟨fun _ _ => rfl, rfl, rfl, rfl, fun _ => rfl⟩

/-- An instruction that is the conditional jump on a test of the flag follows the jump rule of that test
(44_control_transfer.md R182, R183). -/
theorem jumpRule_of_conditionalJump {ins : Byte → Instr} {opcode : Byte} {taken : Flag → Prop} {test : Flag → Bool}
    (hexec : ∀ a s, exec (ins a) s = conditionalJump (test s.fl) a s) (hencode : ∀ a, encode (ins a) = [opcode, a])
    (htest : ∀ f, test f = true ↔ taken f) : JumpRule ins opcode taken := by
  refine ⟨hencode, fun a s htaken => ?_, fun a s huntaken hfits => ?_, fun a s ha => ?_⟩
  · refine ⟨s.setPc (zextPc (s.reg a)), ?_, zextPc_toNat _, jumpFrame_setPc s _⟩
    rw [hexec, conditionalJump_good, if_pos ((htest _).mpr htaken)]
  · refine ⟨s.advance 2, ?_, advance_toNat hfits, jumpFrame_setPc s _⟩
    rw [hexec, conditionalJump_good, if_neg (mt (htest _).mp huntaken)]
  · exact raises_of_exec ((hexec a s).trans (conditionalJump_bad _ s ha))

/-- Settles O32: JEQ is the conditional jump on `flagIsEqual`. -/
theorem jeqJumpsOnEqual : Obligations.JeqJumpsOnEqual :=
  jumpRule_of_conditionalJump (test := flagIsEqual) (fun _ _ => rfl) (fun _ => rfl) flagIsEqual_iff

/-- Settles O33: JNE is the conditional jump on the negated test. -/
theorem jneJumpsOnNotEqual : Obligations.JneJumpsOnNotEqual :=
  jumpRule_of_conditionalJump (test := fun f => !flagIsEqual f) (fun _ _ => rfl) (fun _ => rfl)
    (fun f => by rw [Bool.not_eq_true', ← Bool.not_eq_true, flagIsEqual_iff])

end Sys2Proof.Machine

/-! ## Faults (60_exceptions.md)

A fault is entered by `State.raise` alone: `stepWith_next` says so of the fetch, `exec_effect` of the instruction. -/

namespace Sys2Proof.Machine

/-- An instruction that leaves a RUNNING machine FAULTED did nothing but raise: each effect other than the fault keeps the
run state or halts (60_exceptions.md R197). -/
theorem exec_faulted {i : Instr} {s t : State} {k : FaultKind} {p : Pc} (hrun : s.run = .running)
    (h : exec i s = .next t) (ht : t.run = .faulted k p) : t = s.raise k := by
  cases exec_effect h with
  | fault k' _ hraise =>
    obtain ⟨rfl, -⟩ : k' = k ∧ s.pc = p := by simpa [hraise] using ht
    exact hraise
  | halt _ hhalt => simp [hhalt] at ht
  | jump a taken _ hjump => cases taken <;> simp [hjump, hrun] at ht
  | _ => simp [*] at ht

/-- A step that enters FAULTED did nothing but raise, in its fetch or in its instruction, under every opcode map
(60_exceptions.md R197). -/
theorem stepWith_faulted {c : Config} {s t : State} {k : FaultKind} {p : Pc} (h : stepWith c s = .next t)
    (ht : t.run = .faulted k p) : t = s.raise k := by
  obtain ⟨hrun, ⟨k', -, rfl⟩ | ⟨i, -, hexec⟩⟩ := stepWith_next h
  · obtain ⟨rfl, -⟩ : k' = k ∧ s.pc = p := by simpa using ht
    rfl
  · exact exec_faulted hrun hexec ht

/-- The ports after fault entry: the kind's code and the address of the faulting instruction (60_exceptions.md R191,
R196). -/
theorem outputPorts_raise (s : State) (k : FaultKind) : outputPorts (s.raise k) =
    { halted := false, faultValid := true, faultKind := Config.spec.faultCode k, faultPc := some s.pc } := rfl

/-- Settles O44: the next state is fault entry from the old one, which writes the run state alone. -/
theorem faultsArePrecise : Obligations.FaultsArePrecise := by
  intro s t k p hstep ht
  obtain rfl : t = s.raise k := stepWith_faulted hstep ht
  exact ⟨rfl, outputPorts_raise s k⟩

end Sys2Proof.Machine

/-! ## Encoding: decoder and encoder are inverse (30_encoding.md)

One characterisation of what the decoder answers; both directions, and the step on decoded bytes, are read off it. -/

namespace Sys2Proof.Machine

/-! ### Decoder and encoder -/

/-- The operand bytes of an assembled instruction: as many of the two as the operation has (30_encoding.md R81). -/
theorem assemble_operands (o : Op) (a b : Byte) :
    (o.assemble a b).operands = [a, b].take o.format.operandCount := by
  cases o <;> rfl

/-- An instruction is assembled from its operation and its operand bytes. -/
theorem assemble_eq_of_operands {i : Instr} {a b : Byte} (h : i.operands = [a, b].take i.op.format.operandCount) :
    i.op.assemble a b = i := by
  cases i <;> simp_all [Instr.op, Instr.operands, Op.format, Format.operandCount, Op.assemble]

/-- The decoder answers an instruction exactly when the list is an opcode byte of its operation, its operand bytes, and
the bytes left (30_encoding.md R88, R90). -/
theorem decodeWith_eq_ok_iff {c : Config} {bytes rest : List Byte} {i : Instr} :
    decodeWith c bytes = .ok (i, rest) ↔ ∃ b, bytes = b :: (i.operands ++ rest) ∧ c.opOf b = some i.op := by
  constructor
  · intro h
    unfold decodeWith at h
    split at h
    · cases h
    · rename_i b tail
      refine ⟨b, ?_⟩
      split at h
      · cases h
      · rename_i o hop
        split at h <;> cases h <;> simp [assemble_operands, *]
  · rintro ⟨b, rfl, hop⟩
    simp only [decodeWith, hop]
    cases i <;> rfl

/-- Decoding an encoding followed by other bytes, for every opcode map with distinct bytes (30_encoding.md R85). -/
theorem decodeWith_encodeWith_append {c : Config} (hc : c.OpcodesDistinct) (i : Instr) (rest : List Byte) :
    decodeWith c (encodeWith c i ++ rest) = .ok (i, rest) :=
  decodeWith_eq_ok_iff.mpr ⟨c.opcodeMap i.op, rfl, opOf_opcodeMap hc i.op⟩

/-- Settles O2: `decodeWith_encodeWith_append`, and the 21 bytes of the table are distinct. -/
theorem decodeInvertsEncode : Obligations.DecodeInvertsEncode :=
  ⟨fun _ => decodeWith_encodeWith_append, spec_opcodesDistinct⟩

/-- Settles O3: the opcode byte is the one the lookup found, the operand bytes are the decoder's. -/
theorem encodeInvertsDecode : Obligations.EncodeInvertsDecode := by
  intro c bytes i rest h
  obtain ⟨b, rfl, hop⟩ := decodeWith_eq_ok_iff.mp h
  rw [encodeWith, opOf_some hop, List.cons_append]

/-- Bytes that are an encoding decode to its instruction, with no byte left. -/
theorem decode_of_encode_eq {i : Instr} {bytes : List Byte} (h : encode i = bytes) : decode bytes = .ok (i, []) := by
  have hdec := decodeWith_encodeWith_append spec_opcodesDistinct i []
  rw [List.append_nil] at hdec
  exact h ▸ hdec

/-- Settles O1: each word is the encoding of its instruction, and 8 is no register number. -/
theorem specExampleWordsDecode : Obligations.SpecExampleWordsDecode :=
  ⟨decode_of_encode_eq rfl, decode_of_encode_eq rfl, decode_of_encode_eq rfl, decode_of_encode_eq rfl,
    decode_of_encode_eq rfl, decode_of_encode_eq rfl, decode_of_encode_eq rfl, decode_of_encode_eq rfl,
    decode_of_encode_eq rfl, fun s => raises_of_exec (execPrn_bad s (by decide))⟩

/-! ### The step on decoded bytes -/

/-- The fetch window is the bytes from `pc` on, at most three, as far as memory goes. -/
theorem fetchWindow_getElem?_eq_some_iff {s : State} {k : Nat} {v : Byte} :
    (fetchWindow s)[k]? = some v ↔ k < 3 ∧ s.pc.toNat + k < 256 ∧ s.byteAt (s.pc.toNat + k) = v := by
  rw [fetchWindow_eq]
  split_ifs <;> rcases k with _ | _ | _ | k <;> simp <;> omega

/-- What the fetch window decodes to is what the step fetches (40_dispatch.md R110). -/
theorem fetchWith_of_decodeWith {c : Config} {s : State} {i : Instr} {rest : List Byte}
    (h : decodeWith c (fetchWindow s) = .ok (i, rest)) : fetchWith c s = .ok i := by
  obtain ⟨b, hwindow, hop⟩ := decodeWith_eq_ok_iff.mp h
  have hbyte (k : Nat) (v : Byte) (hk : (b :: (i.operands ++ rest))[k]? = some v) :
      s.pc.toNat + k < 256 ∧ s.byteAt (s.pc.toNat + k) = v :=
    (fetchWindow_getElem?_eq_some_iff.mp (hwindow ▸ hk)).2
  have hop' : c.opOf (s.byteAt s.pc.toNat) = some i.op := (hbyte 0 b rfl).2 ▸ hop
  have hlen : i.operands.length = i.op.format.operandCount := by cases i <;> rfl
  have hfits : s.Fits i.op.length := by
    obtain ⟨hlast, -⟩ := hbyte i.operands.length _ (List.getElem?_eq_getElem (by simp))
    simp only [Op.length, ← hlen]
    omega
  have hoperands : i.operands =
      [s.byteAt (s.pc.toNat + 1), s.byteAt (s.pc.toNat + 2)].take i.op.format.operandCount := by
    refine List.ext_getElem (by rcases operandCount_cases i.op with h | h | h <;> simp [hlen, h]) fun k hk hk' => ?_
    have hv := (hbyte (k + 1) i.operands[k] (by simp [List.getElem?_append_left hk])).2
    rw [List.length_take, List.length_cons, List.length_singleton] at hk'
    obtain rfl | rfl : k = 0 ∨ k = 1 := by omega
    · simpa using hv.symm
    · simpa using hv.symm
  rw [fetchWith_fits hop' hfits, assemble_eq_of_operands hoperands]

/-- A RUNNING step executes what the fetch window decodes to (40_dispatch.md R114). -/
theorem stepWith_of_decodeWith {c : Config} {s : State} {i : Instr} {rest : List Byte} (hrun : s.run = .running)
    (h : decodeWith c (fetchWindow s) = .ok (i, rest)) : stepWith c s = exec i s :=
  stepWith_exec hrun (fetchWith_of_decodeWith h)

/-- Settles O5: `stepWith_of_decodeWith`, for every map, this machine's included. -/
theorem stepRunsDecodedInstruction : Obligations.StepRunsDecodedInstruction :=
  ⟨fun _ _ _ _ => stepWith_of_decodeWith, fun _ _ _ => stepWith_of_decodeWith⟩

end Sys2Proof.Machine

/-! ## What an instruction may write, and the invariant (10_state.md, 20_memory.md, 40_dispatch.md)

Each fact is read off `exec_effect`; a step adds to it what its fetch says. -/

namespace Sys2Proof.Machine

/-! ### A pushed byte -/

/-- The state after a push of `v` to the cell `c`: the cell holds the byte and the stack pointer names it (43_stack.md
R170). -/
def State.pushed (s : State) (c v : Byte) : State :=
  State.setReg { s with mem := s.mem.put c.toNat v } Config.spIndex c

section Pushed

variable (s : State) (c v : Byte)

@[simp] theorem pushed_mem : (s.pushed c v).mem = s.mem.put c.toNat v := rfl
@[simp] theorem pushed_pc : (s.pushed c v).pc = s.pc := rfl
@[simp] theorem pushed_fl : (s.pushed c v).fl = s.fl := rfl
@[simp] theorem pushed_run : (s.pushed c v).run = s.run := rfl
@[simp] theorem pushed_out : (s.pushed c v).out = s.out := rfl
@[simp] theorem pushed_sp : (s.pushed c v).sp = c := setReg_sp ..

@[simp] theorem pushed_reg (r : RegIdx) : (s.pushed c v).reg r = if Config.spIndex = r then c else s.reg r :=
  setReg_reg ..

end Pushed

/-! ### Registers and memory -/

/-- A register in an instruction's row is none of those outside it. -/
theorem ne_of_mayWriteReg {i : Instr} {r r' : RegIdx} (hin : mayWriteReg i r' = true) (hout : mayWriteReg i r = false) :
    r' ≠ r := by
  rintro rfl
  simp [hin] at hout

/-- Settles O38: each effect writes registers of the instruction's row alone. -/
theorem registersWrittenByTable : Obligations.RegistersWrittenByTable := by
  intro i s t h r hout
  cases exec_effect h with
  | write r' v hin _ _ _ ht => simp [ht, ne_of_mayWriteReg hin hout]
  | push a c hi _ _ ht =>
    have hne : Config.spIndex ≠ r := ne_of_mayWriteReg (by simp [hi, mayWriteReg]) hout
    have ht : t = (s.pushed c _).advance 2 := ht
    simp [ht, hne]
  | call a c v hi _ _ _ ht =>
    have hne : Config.spIndex ≠ r := ne_of_mayWriteReg (by simp [hi, mayWriteReg]) hout
    have ht : t = (s.pushed c v).setPc _ := ht
    simp [ht, hne]
  | pop a w hi ht =>
    have hne : Config.spIndex ≠ r := ne_of_mayWriteReg (by simp [hi, mayWriteReg]) hout
    have hne' : a ≠ r := ne_of_mayWriteReg (by simp [hi, mayWriteReg]) hout
    simp [ht, hne, hne']
  | ret w hi _ ht =>
    have hne : Config.spIndex ≠ r := ne_of_mayWriteReg (by simp [hi, mayWriteReg]) hout
    simp [ht, hne]
  | halt _ ht => rw [ht]; rfl
  | jump a taken _ ht => cases taken <;> simp [ht]
  | _ => simp [*]

/-- What an instruction does to memory: nothing, or the one cell that PUSH and CALL write, below the stack pointer
(20_memory.md R52). -/
theorem exec_mem {i : Instr} {s t : State} (h : exec i s = .next t) : t.mem = s.mem ∨
    ∃ c v : Byte, (∃ a, i = .push a ∨ i = .call a) ∧ (c.toNat : Int) = pushAddr s ∧ t.mem = s.mem.put c.toNat v := by
  cases exec_effect h with
  | push a c hi _ hc ht => exact .inr ⟨c, _, ⟨_, .inl hi⟩, hc.symm, by rw [ht]; rfl⟩
  | call a c v hi _ hc _ ht => exact .inr ⟨c, v, ⟨_, .inr hi⟩, hc.symm, by rw [ht]; rfl⟩
  | jump a taken _ ht => exact .inl (by cases taken <;> simp [ht])
  | _ => exact .inl (by simp [*])

/-- Settles O39: the cell of `exec_mem` is the only one that reads otherwise. -/
theorem memoryWrittenOnlyByPushAndCall : Obligations.MemoryWrittenOnlyByPushAndCall := by
  intro i s t h c hchanged
  rcases exec_mem h with hsame | ⟨c', v, hi, hc', hput⟩
  · exact absurd (by simp [State.byteAt, hsame]) hchanged
  · obtain rfl : c = c'.toNat := by
      by_contra hne
      exact hchanged (by rw [State.byteAt, hput, get_put_other v hne, State.byteAt])
    exact ⟨hi, hc'⟩

/-! ### The program counter -/

/-- What a successful fetch says: the instruction's operation, and that its bytes lie inside memory (40_dispatch.md
R113). -/
theorem fetchWith_ok {c : Config} {s : State} {i : Instr} (h : fetchWith c s = .ok i) :
    s.Fits i.op.length ∧ c.opOf (s.byteAt s.pc.toNat) = some i.op ∧
      i.op.assemble (s.byteAt (s.pc.toNat + 1)) (s.byteAt (s.pc.toNat + 2)) = i := by
  rcases fetchWith_cases c s with ⟨-, hf⟩ | ⟨-, -, hf⟩ | ⟨o, -, hop, ⟨-, hf⟩ | ⟨hfits, hf⟩⟩
  · cases hf.symm.trans h
  · cases hf.symm.trans h
  · cases hf.symm.trans h
  · obtain rfl := Except.ok.inj (hf.symm.trans h)
    simp [hop, hfits]

/-- What an instruction does to `pc`: nothing on a fault, its own length, or, in a control transfer, a byte as target
(40_dispatch.md R115, R116). -/
theorem exec_pc {i : Instr} {s t : State} (h : exec i s = .next t) :
    (∃ k, t = s.raise k) ∨ t.pc = (s.advance i.op.length).pc ∨
      (i.op.category = .controlTransfer ∧ ∃ v : Byte, t.pc = zextPc v) := by
  cases exec_effect h with
  | fault k _ ht => exact .inl ⟨k, ht⟩
  | call a c r hi _ _ _ ht => exact .inr (.inr ⟨by simp [hi, Instr.op, Op.category], _, by rw [ht]; rfl⟩)
  | ret w hi _ ht => exact .inr (.inr ⟨by simp [hi, Instr.op, Op.category], _, by rw [ht]; rfl⟩)
  | jump a taken hi ht =>
    cases taken with
    | true => exact .inr (.inr ⟨by rcases hi with ⟨rfl, -⟩ | ⟨rfl, -⟩ <;> rfl, _, by rw [ht]; rfl⟩)
    | false => exact .inr (.inl (by rcases hi with ⟨rfl, -⟩ | ⟨rfl, -⟩ <;> rw [ht] <;> rfl))
  | write r v _ _ _ _ ht => exact .inr (.inl (by simp [ht]))
  | _ => exact .inr (.inl (by subst_vars; rfl))

/-- The instruction ended without a fault. -/
abbrev State.Completed (t : State) : Prop := t.run = .running ∨ t.run = .halted

/-- A FAULTED state is no completion. -/
theorem not_completed_of_faulted {t : State} {k : FaultKind} {p : Pc} (h : t.run = .faulted k p) : ¬ t.Completed := by
  rw [State.Completed, h]
  simp

/-- Fault entry is no completion. -/
theorem not_completed_raise (s : State) (k : FaultKind) : ¬ (s.raise k).Completed :=
  not_completed_of_faulted (raise_run s k)

/-- A conditional jump that completes named a register, and did what its test says (44_control_transfer.md R182,
R183). -/
theorem conditionalJump_completed {taken : Bool} {a : Byte} {s t : State} (h : conditionalJump taken a s = .next t)
    (ht : t.Completed) :
    ∃ r : RegIdx, a = regByte r ∧ t = if taken then s.setPc (zextPc (s.reg r)) else s.advance 2 := by
  rcases regIndex_cases a with ⟨r, rfl, -⟩ | ⟨ha, -⟩
  · exact ⟨r, rfl, (Host.Outcome.next.inj ((conditionalJump_good taken r s).symm.trans h)).symm⟩
  · obtain rfl := Host.Outcome.next.inj ((conditionalJump_bad taken s ha).symm.trans h)
    exact absurd ht (not_completed_raise s _)

/-- A conditional jump not taken goes on after itself. -/
theorem conditionalJump_untaken_pc {taken : Bool} {a : Byte} {s t : State} (h : conditionalJump taken a s = .next t)
    (htaken : taken = false) (ht : t.Completed) (hfits : s.Fits 2) : t.pc.toNat = s.pc.toNat + 2 := by
  obtain ⟨r, -, rfl⟩ := conditionalJump_completed h ht
  subst htaken
  exact advance_toNat hfits

/-- A conditional jump taken goes to the register's value. -/
theorem conditionalJump_taken_pc {taken : Bool} {r : RegIdx} {s t : State}
    (h : conditionalJump taken (regByte r) s = .next t) (htaken : taken = true) : t.pc.toNat = (s.reg r).toNat := by
  obtain rfl := Host.Outcome.next.inj ((conditionalJump_good taken r s).symm.trans h)
  subst htaken
  exact zextPc_toNat _

/-- A completed CALL goes to the value its register has after the push (44_control_transfer.md R180, decision D18). -/
theorem execCall_pc {r : RegIdx} {s t : State} (h : execCall (regByte r) s = .next t) (ht : t.Completed) :
    t.pc.toNat = (t.reg r).toNat := by
  rcases execCall_good r s with ⟨-, he⟩ | ⟨c, v, -, -, -, he⟩
  · obtain rfl := Host.Outcome.next.inj (he.symm.trans h)
    exact absurd ht (not_completed_raise s _)
  · obtain rfl : (s.pushed c v).setPc (zextPc (if r = Config.spIndex then c else s.reg r)) = t :=
      Host.Outcome.next.inj (he.symm.trans h)
    simp [eq_comm]

/-- A completed RET goes to the popped byte (44_control_transfer.md R181). -/
theorem execRet_pc {s t : State} (h : execRet s = .next t) (ht : t.Completed) :
    t.pc.toNat = (s.byteAt s.sp.toNat).toNat := by
  rcases execRet_cases s with ⟨-, he⟩ | ⟨w, -, he⟩
  · obtain rfl := Host.Outcome.next.inj (he.symm.trans h)
    exact absurd ht (not_completed_raise s _)
  · obtain rfl := Host.Outcome.next.inj (he.symm.trans h)
    exact zextPc_toNat _

/-- A completed instruction outside the control transfers goes on after itself (40_dispatch.md R115). -/
theorem exec_pc_of_not_controlTransfer {i : Instr} {s t : State} (h : exec i s = .next t) (ht : t.Completed)
    (hcat : i.op.category ≠ .controlTransfer) (hfits : s.Fits i.op.length) :
    t.pc.toNat = s.pc.toNat + i.op.length := by
  rcases exec_pc h with ⟨k, rfl⟩ | hpc | ⟨hcat', -⟩
  · exact absurd ht (not_completed_raise s k)
  · rw [hpc, advance_toNat hfits]
  · exact absurd hcat' hcat

/-- Settles O9: a completed step executed the fetched instruction, and each clause is that instruction's rule for
`pc`. -/
theorem pcSequencing : Obligations.PcSequencing := by
  intro s t i hrun hfetch hstep ht
  obtain ⟨hfits, -⟩ := fetchWith_ok hfetch
  have h : exec i s = .next t := (stepWith_exec hrun hfetch).symm.trans hstep
  refine ⟨fun hcat => ?_, ?_, ?_, ?_, ?_, ?_, ?_⟩
  · have hpc := exec_pc_of_not_controlTransfer h ht hcat hfits
    exact ⟨hpc, hpc ▸ hfits⟩
  · rintro a rfl hfl
    exact conditionalJump_untaken_pc h (by simpa [← flagIsEqual_iff] using hfl) ht hfits
  · rintro a rfl hfl
    exact conditionalJump_untaken_pc h (by simpa [← flagIsEqual_iff] using hfl) ht hfits
  · rintro r rfl hfl
    exact conditionalJump_taken_pc h (by simpa [← flagIsEqual_iff] using hfl)
  · rintro r rfl hfl
    exact conditionalJump_taken_pc h (by simpa [← flagIsEqual_iff] using hfl)
  · rintro r rfl
    exact execCall_pc h ht
  · rintro rfl
    exact execRet_pc h ht

/-! ### The invariant -/

/-- An instruction keeps memory canonical: the cell it writes lies inside memory. -/
theorem exec_mem_wf {i : Instr} {s t : State} (hwf : s.mem.wf = true) (h : exec i s = .next t) : t.mem.wf = true := by
  rcases exec_mem h with hsame | ⟨c, v, -, -, hput⟩
  · rwa [hsame]
  · rw [hput]
    exact wf_put v hwf c.isLt

/-- An instruction that lies inside memory leaves `pc` at most 256: a target is a byte (40_dispatch.md R120). -/
theorem exec_pc_le {i : Instr} {s t : State} (hfits : s.Fits i.op.length) (h : exec i s = .next t) :
    t.pc.toNat ≤ 256 := by
  rcases exec_pc h with ⟨k, rfl⟩ | hpc | ⟨-, v, hpc⟩
  · exact le_trans (Nat.le_add_right _ _) hfits
  · rw [hpc, advance_toNat hfits]
    exact hfits
  · rw [hpc, zextPc_toNat]
    exact v.isLt.le

/-- A fetch raises AddressOutOfRange or IllegalInstruction, never the ALU's fault (60_exceptions.md R194). -/
theorem fetchWith_error_ne_unsupported {c : Config} {s : State} {k : FaultKind} (h : fetchWith c s = .error k) :
    k ≠ .unsupportedAluOperation := by
  rcases fetchWith_cases c s with ⟨-, hf⟩ | ⟨-, -, hf⟩ | ⟨o, -, -, ⟨-, hf⟩ | ⟨-, hf⟩⟩ <;>
    cases hf.symm.trans h <;> simp

/-- A step keeps memory canonical and `pc` at most 256. -/
theorem stepWith_mem_wf_pc_le {c : Config} {s t : State} (hwf : s.mem.wf = true) (hpc : s.pc.toNat ≤ 256)
    (h : stepWith c s = .next t) : t.mem.wf = true ∧ t.pc.toNat ≤ 256 := by
  obtain ⟨-, ⟨k, -, rfl⟩ | ⟨i, hfetch, hexec⟩⟩ := stepWith_next h
  · exact ⟨hwf, hpc⟩
  · exact ⟨exec_mem_wf hwf hexec, exec_pc_le (fetchWith_ok hfetch).1 hexec⟩

/-- No step records UnsupportedAluOperation: its fetch does not raise it, and no instruction does. -/
theorem stepWith_supported {c : Config} {s t : State} (h : stepWith c s = .next t) (p : Pc) :
    t.run ≠ .faulted .unsupportedAluOperation p := by
  intro ht
  obtain ⟨hrun, ⟨k, hfetch, rfl⟩ | ⟨i, -, hexec⟩⟩ := stepWith_next h
  · rw [raise_run, Run.faulted.injEq] at ht
    exact fetchWith_error_ne_unsupported hfetch ht.1
  · cases hrun.symm.trans (exec_unsupported hexec ht)

/-- Settles O46: memory and `pc` by what a step writes; a fault it records is raised from the state it starts in. -/
theorem stepKeepsInvariant : Obligations.StepKeepsInvariant := by
  intro c s t hinv h
  obtain ⟨hwf, hpc⟩ := stepWith_mem_wf_pc_le hinv.memory hinv.pcRange h
  refine ⟨hwf, hpc, fun k p ht => ?_, stepWith_supported h⟩
  rw [stepWith_faulted_pc h ht, stepWith_faulted h ht, raise_pc]

/-- A RUNNING state has the invariant when its memory is canonical and its `pc` at most 256: it records no fault. -/
theorem inv_of_running {s : State} (hrun : s.run = .running) (hwf : s.mem.wf = true) (hpc : s.pc.toNat ≤ 256) :
    s.Inv :=
  ⟨hwf, hpc, fun k p hf => by simp [hrun] at hf, fun p hf => by simp [hrun] at hf⟩

/-- Settles O47: reset is RUNNING, with no cell listed and `pc` 0. -/
theorem invariantAtReset : Obligations.InvariantAtReset :=
  fun _ => inv_of_running rfl rfl (Nat.zero_le _)

/-! ### The step and reset -/

/-- Settles O8: a RUNNING step raises in its fetch or executes what it fetched, and executing always answers. -/
theorem runningAlwaysSteps : Obligations.RunningAlwaysSteps := by
  intro c s hrun
  cases hfetch : fetchWith c s with
  | error k => exact ⟨_, stepWith_raise hrun hfetch⟩
  | ok i =>
    obtain ⟨t, ht⟩ := exec_total i s
    exact ⟨t, (stepWith_exec hrun hfetch).trans ht⟩

/-- R0 to R6 are 0 at this machine's reset (10_state.md R27, decision D7). -/
theorem reset_reg {r : RegIdx} (hr : r ≠ 7) : State.reset.reg r = 0 := by
  revert r
  decide

/-- Settles O49: the host's reset is the reset state, field by field, whatever the state before. -/
theorem resetLeavesWholeState : Obligations.ResetLeavesWholeState :=
  fun _ => ⟨fun _ => rfl, fun _ => reset_reg, rfl, rfl, rfl, rfl, rfl, rfl⟩

end Sys2Proof.Machine

/-! ## The flag: comparison, and what of it can be seen (41_alu.md, 10_state.md)

Only the test EQUAL reads the flag. Every other operation commutes with replacing it (`State.setFlag`), so a machine
and its twin take the same steps. -/

namespace Sys2Proof.Machine

/-! ### The comparison -/

/-- The comparison's outcome on a larger first operand (41_alu.md R146, decision D5). -/
theorem compareFlag_of_gt {u v : Byte} (h : v.toNat < u.toNat) : compareFlag u v = .greaterThan := by
  rw [compareFlag, if_neg (by omega), if_pos h]

/-- The comparison's outcome on a smaller first operand (41_alu.md R146, decision D5). -/
theorem compareFlag_of_lt {u v : Byte} (h : u.toNat < v.toNat) : compareFlag u v = .lessThan := by
  rw [compareFlag, if_neg (by omega), if_neg (by omega)]

/-- Settles O21: `exec_cmp_good` leaves the comparison's outcome, of which each case is one. -/
theorem cmpSetsFlagByUnsignedOrder : Obligations.CmpSetsFlagByUnsignedOrder := by
  refine ⟨fun _ _ => rfl, fun a b s hfits => ⟨_, exec_cmp_good a b s, fun heq => ?_, compareFlag_of_gt,
    compareFlag_of_lt, fun _ _ => rfl, ?_, rfl, rfl, fun _ => rfl⟩,
    fun a b s h => raises_of_exec (aluTwoRegister_bad .cmp s h)⟩
  · exact (compareFlag_eq_equal _ _).mpr (BitVec.eq_of_toNat_eq heq)
  · exact advance_toNat (s := s.setFlag _) hfits

/-- Settles O22: after a CMP the flag is EQUAL exactly on equal registers, and the jumps follow their rules. -/
theorem cmpThenJumpFollowsEquality : Obligations.CmpThenJumpFollowsEquality := by
  intro a b r s hfits
  obtain ⟨-, hjeq, hjeq', -⟩ := jeqJumpsOnEqual
  obtain ⟨-, hjne, hjne', -⟩ := jneJumpsOnNotEqual
  have hcmp := exec_cmp_good a b s
  have hflag := compareFlag_eq_equal (s.reg a) (s.reg b)
  generalize ht : (s.setFlag (compareFlag (s.reg a) (s.reg b))).advance 3 = t at hcmp
  have hpc : t.pc.toNat = s.pc.toNat + 3 := by
    rw [← ht]
    exact advance_toNat (s := s.setFlag _) (by simp only [setFlag_pc]; omega)
  have hfits' : t.Fits 2 := by omega
  by_cases heq : s.reg a = s.reg b
  · have hfl : t.fl = .equal := by rw [← ht]; exact hflag.mpr heq
    obtain ⟨u, hu, hupc, -⟩ := hjeq r t hfl
    obtain ⟨v, hv, hvpc, -⟩ := hjne' r t (not_not.mpr hfl) hfits'
    exact ⟨t, u, v, hcmp, hu, hv, fun _ => ⟨by rw [hupc, ← ht]; rfl, by omega⟩, fun hne => absurd heq hne⟩
  · have hfl : t.fl ≠ .equal := by rw [← ht]; exact mt hflag.mp heq
    obtain ⟨u, hu, hupc, -⟩ := hjeq' r t hfl hfits'
    obtain ⟨v, hv, hvpc, -⟩ := hjne r t hfl
    exact ⟨t, u, v, hcmp, hu, hv, fun he => absurd he heq, fun _ => ⟨by omega, by rw [hvpc, ← ht]; rfl⟩⟩

/-! ### Replacing the flag -/

section SetFlag

variable (f : Flag) (s : State)

@[simp] theorem setFlag_sp : (s.setFlag f).sp = s.sp := rfl
@[simp] theorem setFlag_setFlag (g : Flag) : (s.setFlag f).setFlag g = s.setFlag g := rfl
@[simp] theorem setFlag_setReg (i : RegIdx) (v : Byte) : (s.setFlag f).setReg i v = (s.setReg i v).setFlag f := rfl
@[simp] theorem setFlag_setPc (p : Pc) : (s.setFlag f).setPc p = (s.setPc p).setFlag f := rfl
@[simp] theorem setFlag_advance (n : Nat) : (s.setFlag f).advance n = (s.advance n).setFlag f := rfl
@[simp] theorem setFlag_emit (v : Byte) : (s.setFlag f).emit v = (s.emit v).setFlag f := rfl
@[simp] theorem setFlag_raise (k : FaultKind) : (s.setFlag f).raise k = (s.raise k).setFlag f := rfl

@[simp] theorem memRead_setFlag (a : Int) : memRead (s.setFlag f) a = memRead s a := rfl
@[simp] theorem pushAddr_setFlag : pushAddr (s.setFlag f) = pushAddr s := rfl
@[simp] theorem popAddr_setFlag : popAddr (s.setFlag f) = popAddr s := rfl
@[simp] theorem pushOperand_setFlag (a : RegIdx) : pushOperand (s.setFlag f) a = pushOperand s a := rfl
@[simp] theorem returnByte_setFlag : returnByte (s.setFlag f) = returnByte s := rfl
@[simp] theorem fetchWith_setFlag (c : Config) : fetchWith c (s.setFlag f) = fetchWith c s := rfl

@[simp] theorem memWrite_setFlag (a : Int) (v : Byte) :
    memWrite (s.setFlag f) a v = (State.setFlag · f) <$> memWrite s a v := by
  unfold memWrite
  split <;> rfl

@[simp] theorem pushByte_setFlag (v : Byte) : pushByte (s.setFlag f) v = (State.setFlag · f) <$> pushByte s v := by
  simp [pushByte]

end SetFlag

section Twin

variable {f : Flag} {s t : State}

/-- A twin is the state with another flag, EQUAL or not alike. -/
theorem flagTwin_iff : FlagTwin s t ↔ ∃ f, t = s.setFlag f ∧ flagIsEqual f = flagIsEqual s.fl := by
  have htest (f g : Flag) : flagIsEqual f = flagIsEqual g ↔ (g = .equal ↔ f = .equal) := by
    rw [Bool.eq_iff_iff, flagIsEqual_iff, flagIsEqual_iff]
    exact iff_comm
  simp only [htest]
  constructor
  · rintro ⟨ht, hfl⟩
    exact ⟨t.fl, ht, hfl⟩
  · rintro ⟨f, rfl, hfl⟩
    exact ⟨rfl, hfl⟩

/-- A result with the flag replaced settles as the twin of what the result settles as. -/
theorem settle_setFlag {r r' : Except FaultKind State} (h : settle s r = .next t)
    (hr : r' = (State.setFlag · f) <$> r) : settle (s.setFlag f) r' = .next (t.setFlag f) := by
  rcases settle_next h with rfl | ⟨k, rfl, rfl⟩ <;> subst hr <;> rfl

/-- A conditional jump looks at no more of the flag than its test. -/
theorem conditionalJump_setFlag {taken : Bool} {a : Byte} (h : conditionalJump taken a s = .next t) :
    conditionalJump taken a (s.setFlag f) = .next (t.setFlag f) :=
  settle_setFlag h (by cases taken <;> simp)

/-- A two-register ALU instruction other than CMP does not look at the flag. -/
theorem aluTwoRegister_setFlag {o : AluOp} {a b : Byte} (ho : o ≠ .cmp) (h : aluTwoRegister o a b s = .next t) :
    aluTwoRegister o a b (s.setFlag f) = .next (t.setFlag f) := by
  refine settle_setFlag h ?_
  cases regIndex a with
  | error k => rfl
  | ok i =>
    cases regIndex b with
    | error k => rfl
    | ok j =>
      cases hr : aluCompute o (s.reg i) (s.reg j) with
      | error k => simp [hr]
      | ok r =>
        obtain ⟨rfl, -⟩ | ⟨-, w, rfl⟩ := aluCompute_ok hr
        · exact absurd rfl ho
        · simp [hr, writeAluResult]

/-- NOT does not look at the flag. -/
theorem execNot_setFlag {a : Byte} (h : execNot a s = .next t) : execNot a (s.setFlag f) = .next (t.setFlag f) :=
  settle_setFlag h (by simp [aluCompute, writeAluResult])

/-- CMP overwrites the flag, or raises. -/
theorem exec_cmp_setFlag {a b : Byte} (h : exec (.cmp a b) s = .next t) :
    exec (.cmp a b) (s.setFlag f) = .next t ∨ exec (.cmp a b) (s.setFlag f) = .next (t.setFlag f) ∧ t.fl = s.fl := by
  by_cases hbad : BadReg a ∨ BadReg b
  · obtain rfl := Host.Outcome.next.inj ((aluTwoRegister_bad .cmp s hbad).symm.trans h)
    exact .inr ⟨aluTwoRegister_bad .cmp _ hbad, rfl⟩
  · rcases regIndex_cases a with ⟨i, rfl, -⟩ | ⟨ha, -⟩
    · rcases regIndex_cases b with ⟨j, rfl, -⟩ | ⟨hb, -⟩
      · obtain rfl := Host.Outcome.next.inj ((exec_cmp_good i j s).symm.trans h)
        exact .inl (exec_cmp_good i j _)
      · exact absurd (.inr hb) hbad
    · exact absurd (.inl ha) hbad

/-- An instruction other than CMP looks at no more of the flag than the test EQUAL, and leaves the flag it finds. -/
theorem exec_setFlag {i : Instr} (hi : ∀ a b, i ≠ .cmp a b) (hf : flagIsEqual f = flagIsEqual s.fl)
    (h : exec i s = .next t) : exec i (s.setFlag f) = .next (t.setFlag f) := by
  cases i with
  | hlt =>
    obtain rfl := Host.Outcome.next.inj ((exec_hlt s).symm.trans h)
    rfl
  | cmp a b => exact absurd rfl (hi a b)
  | ldi a imm => exact settle_setFlag h (by simp)
  | prn a => exact settle_setFlag h (by simp)
  | push a => exact settle_setFlag h (by simp)
  | pop a => exact settle_setFlag h (by simp)
  | call a => exact settle_setFlag h (by simp)
  | ret =>
    -- Unfolded first: unification alone would evaluate the address check of the pop's read.
    simp only [exec, execRet] at h ⊢
    exact settle_setFlag h (by simp)
  | jeq a =>
    simp only [exec, execJeq, setFlag_fl, hf] at h ⊢
    exact conditionalJump_setFlag h
  | jne a =>
    simp only [exec, execJne, setFlag_fl, hf] at h ⊢
    exact conditionalJump_setFlag h
  | not a => exact execNot_setFlag h
  | _ => exact aluTwoRegister_setFlag (by simp) h

/-- Twins stay twins over an instruction: CMP overwrites the flag, the others keep it. -/
theorem exec_flagTwin {i : Instr} (hf : flagIsEqual f = flagIsEqual s.fl) (h : exec i s = .next t) :
    ∃ t', exec i (s.setFlag f) = .next t' ∧ FlagTwin t t' := by
  have htwin (hfl : t.fl = s.fl) : FlagTwin t (t.setFlag f) := flagTwin_iff.mpr ⟨f, rfl, by rw [hfl, hf]⟩
  by_cases hcmp : ∃ a b, i = .cmp a b
  · obtain ⟨a, b, rfl⟩ := hcmp
    rcases exec_cmp_setFlag h with hsame | ⟨hset, hfl⟩
    · exact ⟨t, hsame, rfl, Iff.rfl⟩
    · exact ⟨_, hset, htwin hfl⟩
  · have hi : ∀ a b, i ≠ .cmp a b := fun a b heq => hcmp ⟨a, b, heq⟩
    exact ⟨_, exec_setFlag hi hf h, htwin (((onlyCmpWritesFlag i s t h).1) hi)⟩

end Twin

/-- Twins stay twins over a step, under every opcode map: they fetch alike, and stop alike. -/
theorem stepWith_flagTwin {c : Config} {s t : State} (h : FlagTwin s t) :
    OutcomesRelated FlagTwin (stepWith c s) (stepWith c t) := by
  obtain ⟨f, rfl, hf⟩ := flagTwin_iff.mp h
  cases hrun : s.run with
  | halted => simp [stepWith, hrun, OutcomesRelated]
  | faulted k p => simp [stepWith, hrun, OutcomesRelated]
  | running =>
    have hrun' : (s.setFlag f).run = .running := hrun
    cases hfetch : fetchWith c s with
    | error k =>
      rw [stepWith_raise hrun hfetch, stepWith_raise hrun' ((fetchWith_setFlag f s c).trans hfetch)]
      exact flagTwin_iff.mpr ⟨f, rfl, hf⟩
    | ok i =>
      obtain ⟨u, hu⟩ := exec_total i s
      obtain ⟨u', hu', htwin⟩ := exec_flagTwin hf hu
      rw [stepWith_exec hrun hfetch, stepWith_exec hrun' ((fetchWith_setFlag f s c).trans hfetch), hu, hu']
      exact htwin

/-- A relation that every step carries on, a run of any length carries on. -/
theorem core_run_related {R : State → State → Prop}
    (hstep : ∀ s t, R s t → OutcomesRelated R (step s) (step t)) (n : Nat) {s t : State} (h : R s t) :
    OutcomesRelated R (Sys2Proof.core.run n s) (Sys2Proof.core.run n t) := by
  induction n generalizing s t with
  | zero => exact h
  | succ n ih =>
    have hnext := hstep s t h
    rw [core_run_succ, core_run_succ]
    cases hs : step s <;> cases ht : step t <;> rw [hs, ht] at hnext
    case next.next => exact ih hnext
    case fault.fault => exact hnext
    case refused.refused => exact hnext
    all_goals exact hnext.elim

/-- Settles O36: one step by `stepWith_flagTwin`, a run by induction on its length. -/
theorem flagOrderIsUnobservable : Obligations.FlagOrderIsUnobservable :=
  ⟨fun _ _ _ => stepWith_flagTwin, fun n _ _ => core_run_related (fun _ _ => stepWith_flagTwin) n⟩

end Sys2Proof.Machine

/-! ## Memory: its contract, equality of memories, and storing an image (20_memory.md) -/

namespace Sys2Proof.Machine

/-! ### The contract of MemRead and MemWrite -/

/-- A write inside memory leaves what every other address reads, in memory or not. -/
theorem memRead_put_other (s : State) {a : Nat} {b : Int} (v : Byte) (h : b ≠ a) :
    memRead { s with mem := s.mem.put a v } b = memRead s b := by
  by_cases hb : b < 0 ∨ 255 < b
  · rw [memRead_outside _ hb, memRead_outside s hb]
  · obtain ⟨n, rfl⟩ := Int.eq_ofNat_of_zero_le (a := b) (by omega)
    have hn : n < Config.memSize := by simp only [Config.memSize]; omega
    have hna : n ≠ a := fun heq => h (by rw [heq])
    rw [memRead_inside _ hn, memRead_inside s hn]
    exact congrArg Except.ok (get_put_other v hna)

/-- Settles O41: an address inside memory is a cell, which `put` writes alone and `get` reads back. -/
theorem memoryContract : Obligations.MemoryContract := by
  refine ⟨fun s a v h => ⟨memRead_outside s h, memWrite_outside s v h⟩, fun s a v h0 h255 => ?_⟩
  obtain ⟨n, rfl⟩ := Int.eq_ofNat_of_zero_le h0
  have hn : n < Config.memSize := by simp only [Config.memSize]; omega
  refine ⟨memRead_inside s hn, _, memWrite_inside s v hn, rfl, fun b => memRead_put_other s v, fun hwf => ?_⟩
  refine ⟨wf_put v hwf hn, ?_⟩
  rw [memRead_inside _ hn]
  exact congrArg Except.ok (get_put_same hwf n v)

/-! ### Equality of canonical memories -/

/-- A canonical memory that reads the reset value everywhere lists no cell. -/
theorem eq_nil_of_get_eq_reset {m : Memory} {lo : Nat} (hm : m.wfFrom lo = true)
    (h : ∀ a, m.get a = Config.memReset) : m = [] := by
  cases m with
  | nil => rfl
  | cons c rest =>
    obtain ⟨k, w⟩ := c
    simp only [Memory.wfFrom, Bool.and_eq_true, decide_eq_true_eq] at hm
    exact absurd (by simpa [Memory.get] using h k) hm.1.2

/-- The first listed address of a canonical memory is the first that does not read the reset value. -/
theorem head_le_of_get_eq {m m' : Memory} {k k' : Nat} {w w' : Byte} (hw : w ≠ Config.memReset)
    (hm' : m'.wfFrom (k' + 1) = true) (h : ∀ a, Memory.get ((k, w) :: m) a = Memory.get ((k', w') :: m') a) :
    k' ≤ k := by
  by_contra hlt
  have hk := h k
  simp only [Memory.get, if_true, if_neg (show k' ≠ k by omega), wfFrom_get_below hm' (show k < k' + 1 by omega)] at hk
  exact hw hk

/-- Canonical memories that read alike everywhere are equal: their first cells are the same, and so on. -/
theorem eq_of_wfFrom_of_get_eq {m m' : Memory} {lo lo' : Nat} (hm : m.wfFrom lo = true) (hm' : m'.wfFrom lo' = true)
    (h : ∀ a, m.get a = m'.get a) : m = m' := by
  induction m generalizing m' lo lo' with
  | nil => exact (eq_nil_of_get_eq_reset hm' fun a => (h a).symm).symm
  | cons c rest ih =>
    cases m' with
    | nil => exact eq_nil_of_get_eq_reset hm h
    | cons c' rest' =>
      obtain ⟨k, w⟩ := c
      obtain ⟨k', w'⟩ := c'
      simp only [Memory.wfFrom, Bool.and_eq_true, decide_eq_true_eq] at hm hm'
      obtain ⟨⟨-, hw⟩, hrest⟩ := hm
      obtain ⟨⟨-, hw'⟩, hrest'⟩ := hm'
      obtain rfl : k = k' :=
        le_antisymm (head_le_of_get_eq hw' hrest fun a => (h a).symm) (head_le_of_get_eq hw hrest' h)
      obtain rfl : w = w' := by simpa [Memory.get] using h k
      refine congrArg _ (ih hrest hrest' fun a => ?_)
      by_cases ha : k = a
      · subst ha
        rw [wfFrom_get_below hrest (Nat.lt_succ_self k), wfFrom_get_below hrest' (Nat.lt_succ_self k)]
      · simpa [Memory.get, ha] using h a

/-- Settles O42: outside 0 to 255 canonical memories read alike too, so `eq_of_wfFrom_of_get_eq` applies. -/
theorem canonicalMemoriesAreEqual : Obligations.CanonicalMemoriesAreEqual := by
  intro m m' hm hm' h
  refine eq_of_wfFrom_of_get_eq hm hm' fun a => ?_
  by_cases ha : a < 256
  · exact h a ha
  · rw [wfFrom_get_outside hm (by simpa using ha), wfFrom_get_outside hm' (by simpa using ha)]

/-! ### Storing an image -/

/-- Consecutive stores leave every cell before and after them. -/
theorem get_putBytes_outside {m : Memory} {a b : Nat} {bytes : List Byte} (h : b < a ∨ a + bytes.length ≤ b) :
    (m.putBytes a bytes).get b = m.get b := by
  induction bytes generalizing m a with
  | nil => rfl
  | cons v rest ih =>
    rw [List.length_cons] at h
    rw [Memory.putBytes, ih (by omega), get_put_other v (by omega)]

/-- Consecutive stores put each byte into its cell: the later ones leave it (20_memory.md R66). -/
theorem get_putBytes_inside {m : Memory} {a i : Nat} {bytes : List Byte} (hm : m.wf = true)
    (ha : a + bytes.length ≤ Config.memSize) (hi : i < bytes.length) :
    (m.putBytes a bytes).get (a + i) = bytes[i] := by
  induction bytes generalizing m a i with
  | nil => simp at hi
  | cons v rest ih =>
    rw [List.length_cons] at ha hi
    rw [Memory.putBytes]
    cases i with
    | zero =>
      rw [get_putBytes_outside (by omega)]
      exact get_put_same hm a v
    | succ i =>
      have hstored := ih (m := m.put a v) (a := a + 1) (i := i) (wf_put v hm (by omega)) (by omega) (by omega)
      rwa [Nat.add_right_comm] at hstored

/-- A load that stays inside memory stores its bytes (20_memory.md R66). -/
theorem loadFrom_fits {a : Nat} {bytes : List Byte} {s : State} (h : a + bytes.length ≤ Config.memSize) :
    loadFrom a bytes s = .ok { s with mem := s.mem.putBytes a bytes } := by
  induction bytes generalizing a s with
  | nil => rfl
  | cons v rest ih =>
    rw [List.length_cons] at h
    rw [loadFrom, memWrite_inside s v (by omega), ok_bind, ih (by omega)]
    rfl

/-- A load that runs past the end of memory raises at the first byte beyond it (20_memory.md R67). -/
theorem loadFrom_past_end {a : Nat} {bytes : List Byte} {s : State} (ha : a ≤ Config.memSize)
    (h : Config.memSize < a + bytes.length) : loadFrom a bytes s = .error .addressOutOfRange := by
  induction bytes generalizing a s with
  | nil => exact absurd ha (by simpa using h)
  | cons v rest ih =>
    rw [loadFrom]
    by_cases hin : a < Config.memSize
    · rw [memWrite_inside s v hin, ok_bind]
      exact ih hin (by rw [List.length_cons] at h; omega)
    · rw [memWrite_outside s v (.inr (by simp only [Config.memSize] at hin; omega))]
      rfl

/-- An image of at most 256 bytes launches: the reset state with the image stored at 0. -/
theorem launch_fits {bytes : List Byte} (h : bytes.length ≤ 256) :
    launch bytes = .ok { State.reset with mem := Memory.putBytes [] 0 bytes } :=
  loadFrom_fits (by simpa using h)

/-- A longer image does not launch. -/
theorem launch_too_long {bytes : List Byte} (h : 256 < bytes.length) : launch bytes = .error .addressOutOfRange :=
  loadFrom_past_end (Nat.zero_le _) (by simpa using h)

/-- A launch raises exactly when the image is longer than memory (20_memory.md R67). -/
theorem launch_eq_error_iff (bytes : List Byte) : launch bytes = .error .addressOutOfRange ↔ 256 < bytes.length := by
  refine ⟨fun h => ?_, launch_too_long⟩
  by_contra hle
  cases (launch_fits (Nat.le_of_not_lt hle)).symm.trans h

/-- Settles O50: `launch_fits` over the empty memory, `launch_too_long`; the cell at 0 of the empty image is 0, which is
no opcode. -/
theorem loadPlacesImageOverZeros : Obligations.LoadPlacesImageOverZeros := by
  refine ⟨fun bytes h => ⟨_, launch_fits h, fun i hi => ?_, fun i hi => ?_, rfl, ?_⟩, fun bytes => launch_too_long,
    _, launch_fits (Nat.zero_le _), rfl, ?_⟩
  · have hstored := get_putBytes_inside (m := []) (a := 0) rfl (by simpa using h) hi
    rwa [Nat.zero_add] at hstored
  · exact get_putBytes_outside (m := []) (.inr (by simpa using hi))
  · exact inv_of_running rfl (wf_putBytes rfl (by simpa using h)) (Nat.zero_le _)
  · exact stepRaises_of_fetch_error rfl (fetchWith_illegal (by decide) (by decide))

end Sys2Proof.Machine

/-! ## The stack and CALL (43_stack.md, 44_control_transfer.md)

PUSH and CALL leave `State.pushed`, POP writes its register and then the stack pointer; the rules and the round-trip law
are what these states read. -/

namespace Sys2Proof.Machine

/-! ### PUSH and CALL -/

@[simp] theorem advance_byteAt (s : State) (n a : Nat) : (s.advance n).byteAt a = s.byteAt a := rfl
@[simp] theorem setPc_byteAt (s : State) (p : Pc) (a : Nat) : (s.setPc p).byteAt a = s.byteAt a := rfl
@[simp] theorem setReg_byteAt (s : State) (i : RegIdx) (v : Byte) (a : Nat) :
    (s.setReg i v).byteAt a = s.byteAt a := rfl

/-- The pushed cell reads the pushed byte. -/
theorem pushed_byteAt_self {s : State} (hwf : s.mem.wf = true) (c v : Byte) : (s.pushed c v).byteAt c.toNat = v :=
  get_put_same hwf c.toNat v

/-- Every other cell reads as before. -/
theorem memorySameBut_pushed (s : State) (c v : Byte) : MemorySameBut c.toNat s (s.pushed c v) :=
  fun _ => get_put_other v

/-- A push changes no register but the stack pointer. -/
theorem regsSameBut_pushed (s : State) (c v : Byte) : RegsSameBut [Config.spIndex] s (s.pushed c v) := fun r hr => by
  have hne : Config.spIndex ≠ r := fun heq => hr (by simp [heq])
  rw [pushed_reg, if_neg hne]

/-- The address of a push is the number below the stack pointer. -/
theorem natCast_eq_pushAddr_iff {s : State} {n : Nat} : (n : Int) = pushAddr s ↔ n + 1 = s.sp.toNat := by
  simp only [pushAddr]
  omega

/-- PUSH with a stack pointer other than 0 (43_stack.md R170). -/
theorem exec_push_good (a : RegIdx) {s : State} (hsp : s.sp ≠ 0) : ∃ c : Byte, c.toNat + 1 = s.sp.toNat ∧
    exec (.push (regByte a)) s = .next ((s.pushed c (if a = Config.spIndex then c else s.reg a)).advance 2) := by
  obtain ⟨h0, -⟩ | ⟨c, hc, -, hnext⟩ := execPush_good a s
  · exact absurd h0 hsp
  · exact ⟨c, hc, hnext⟩

/-- PUSH with the stack pointer 0 raises (43_stack.md R170, decision D11). -/
theorem exec_push_fault (a : RegIdx) {s : State} (hsp : s.sp = 0) :
    exec (.push (regByte a)) s = .next (s.raise .addressOutOfRange) := by
  obtain ⟨-, hfault⟩ | ⟨c, hc, -⟩ := execPush_good a s
  · exact hfault
  · simp [hsp] at hc

/-- Settles O27: `exec_push_good` leaves a pushed state, `exec_push_fault` and a bad index raise. -/
theorem pushStoresBelowStackPointer : Obligations.PushStoresBelowStackPointer := by
  refine ⟨fun _ => rfl, fun a s hfits hwf hsp => ?_, fun a s hsp => raises_of_exec (exec_push_fault a hsp),
    fun a s ha => raises_of_exec (execPush_bad s ha)⟩
  obtain ⟨c, hc, hnext⟩ := exec_push_good a hsp
  refine ⟨_, hnext, fun n hn => ?_, by simpa using hc, regsSameBut_pushed s c _, ?_, rfl, rfl, rfl⟩
  · obtain rfl : n = c.toNat := Nat.add_right_cancel ((natCast_eq_pushAddr_iff.mp hn).trans hc.symm)
    refine ⟨by simp, ?_, memorySameBut_pushed s c _⟩
    simpa using pushed_byteAt_self hwf c (if a = Config.spIndex then c else s.reg a)
  · exact advance_toNat (s := s.pushed c _) hfits

/-- CALL with a one-byte return address and a stack pointer other than 0 (44_control_transfer.md R180). -/
theorem exec_call_good (a : RegIdx) {s : State} (hpc : s.pc.toNat ≤ 253) (hsp : s.sp ≠ 0) :
    ∃ c r : Byte, c.toNat + 1 = s.sp.toNat ∧ r.toNat = s.pc.toNat + 2 ∧ exec (.call (regByte a)) s =
      .next ((s.pushed c r).setPc (zextPc (if a = Config.spIndex then c else s.reg a))) := by
  obtain ⟨h0 | hend, -⟩ | ⟨c, r, hc, -, hr, hnext⟩ := execCall_good a s
  · exact absurd h0 hsp
  · omega
  · exact ⟨c, r, hc, hr, hnext⟩

/-- CALL with the stack pointer 0 or no one-byte return address raises (44_control_transfer.md R180, decisions D11 and
D12). -/
theorem exec_call_fault (a : RegIdx) {s : State} (h : s.sp = 0 ∨ 253 < s.pc.toNat) :
    exec (.call (regByte a)) s = .next (s.raise .addressOutOfRange) := by
  obtain ⟨-, hfault⟩ | ⟨c, r, hc, -, hr, -⟩ := execCall_good a s
  · exact hfault
  · have hlt := r.isLt
    rcases h with h0 | hend
    · simp [h0] at hc
    · omega

/-- Settles O30: `exec_call_good` leaves a pushed state at its target, `exec_call_fault` and a bad index raise. -/
theorem callPushesReturnAddress : Obligations.CallPushesReturnAddress := by
  refine ⟨fun _ => rfl, fun a s hpc hwf hsp => ?_,
    fun a s h => raises_of_exec (exec_call_fault a (h.imp_right fun hend => by omega)),
    fun a s ha => raises_of_exec (execCall_bad s ha)⟩
  obtain ⟨c, r, hc, hr, hnext⟩ := exec_call_good a hpc hsp
  refine ⟨_, hnext, fun n hn => ?_, by simpa using hc, regsSameBut_pushed s c r, rfl, rfl, rfl⟩
  obtain rfl : n = c.toNat := Nat.add_right_cancel ((natCast_eq_pushAddr_iff.mp hn).trans hc.symm)
  refine ⟨by simp, ?_, memorySameBut_pushed s c r, ?_⟩
  · exact (congrArg BitVec.toNat (pushed_byteAt_self hwf c r)).trans hr
  · rw [setPc_pc, zextPc_toNat, apply_ite BitVec.toNat]

/-- The cell of the stack pointer is read by a fetch from anywhere that reaches it (20_memory.md R63). -/
theorem fetchWindow_pushed {s : State} (hwf : s.mem.wf = true) {c v : Byte} {q : Pc} {k : Nat} (hk : k < 3)
    (hq : q.toNat + k = c.toNat) : (fetchWindow ((s.pushed c v).setPc q))[k]? = some v := by
  refine fetchWindow_getElem?_eq_some_iff.mpr ⟨hk, ?_, ?_⟩
  · rw [setPc_pc, hq]
    exact c.isLt
  · rw [setPc_pc, hq]
    exact pushed_byteAt_self hwf c v

/-- Settles O40: the byte of `State.pushed` stands in the fetch window of every `pc` that reaches its cell. -/
theorem storedByteIsFetchedNext : Obligations.StoredByteIsFetchedNext := by
  refine ⟨fun a s t hwf hsp h q k hk hq => ?_, fun a s t hwf hsp hpc h q k hk hq => ?_⟩
  · obtain ⟨c, -, hnext⟩ := exec_push_good a hsp
    obtain rfl := Host.Outcome.next.inj (hnext.symm.trans h)
    simp only [advance_sp, pushed_sp] at hq ⊢
    exact fetchWindow_pushed hwf hk hq
  · obtain ⟨c, r, -, hr, hnext⟩ := exec_call_good a hpc hsp
    obtain rfl := Host.Outcome.next.inj (hnext.symm.trans h)
    simp only [setPc_sp, pushed_sp] at hq
    obtain rfl : r = BitVec.ofNat 8 (s.pc.toNat + 2) := by rw [← hr, BitVec.ofNat_toNat, BitVec.setWidth_eq]
    exact fetchWindow_pushed hwf hk hq

/-! ### POP -/

/-- POP of another register than R7 with a stack pointer other than 255 (43_stack.md R171). -/
theorem exec_pop_good {a : RegIdx} {s : State} (ha : a ≠ Config.spIndex) (hsp : s.sp ≠ 255) :
    ∃ w : Byte, w.toNat = s.sp.toNat + 1 ∧ exec (.pop (regByte a)) s =
      .next (((s.setReg a (s.byteAt s.sp.toNat)).setReg Config.spIndex w).advance 2) := by
  have hcases := execPop_good a s
  rw [if_neg ha] at hcases
  exact hcases.resolve_left fun ⟨h255, _⟩ => hsp h255

/-- POP R7 of another byte than 255: the stack pointer written last is the byte plus 1 (43_stack.md R171, decision
D18). -/
theorem exec_pop_sp_good {s : State} (hbyte : s.byteAt s.sp.toNat ≠ 255) :
    ∃ w : Byte, w.toNat = (s.byteAt s.sp.toNat).toNat + 1 ∧ exec (.pop (regByte Config.spIndex)) s =
      .next (((s.setReg Config.spIndex (s.byteAt s.sp.toNat)).setReg Config.spIndex w).advance 2) := by
  have hcases := execPop_good Config.spIndex s
  rw [if_pos rfl] at hcases
  exact hcases.resolve_left fun ⟨h255, _⟩ => hbyte h255

/-- POP raises when the value it would increment is 255: the stack pointer, for POP R7 the popped byte. -/
theorem exec_pop_fault {a : RegIdx} {s : State}
    (h : (if a = Config.spIndex then s.byteAt s.sp.toNat else s.sp) = 255) :
    exec (.pop (regByte a)) s = .next (s.raise .addressOutOfRange) := by
  obtain ⟨-, hfault⟩ | ⟨w, hw, -⟩ := execPop_good a s
  · exact hfault
  · exact absurd h (ne_255_of_toNat_lt (w := w) (by omega))

/-- Two register writes change at most those registers. -/
theorem regsSameBut_setReg_setReg (s : State) (a b : RegIdx) (v w : Byte) :
    RegsSameBut [a, b] s ((s.setReg a v).setReg b w) := fun r hr => by
  obtain ⟨hra, hrb⟩ : a ≠ r ∧ b ≠ r := by simpa [eq_comm] using hr
  rw [setReg_reg, if_neg hrb, setReg_reg, if_neg hra]

/-- What a POP inside memory leaves. -/
theorem plainFrame_pop {s : State} (a : RegIdx) (v w : Byte) (hfits : s.Fits 2) :
    PlainFrame [a, Config.spIndex] 2 s (((s.setReg a v).setReg Config.spIndex w).advance 2) :=
  ⟨regsSameBut_setReg_setReg s a _ v w, advance_toNat (s := (s.setReg a v).setReg Config.spIndex w) hfits, rfl, rfl,
    rfl, fun _ => rfl⟩

/-- Settles O28: `exec_pop_good` and `exec_pop_sp_good`; `exec_pop_fault` and a bad index raise. -/
theorem popLoadsAtStackPointer : Obligations.PopLoadsAtStackPointer := by
  refine ⟨fun _ => rfl, fun a s hfits ha hsp => ?_, fun s hfits hbyte => ?_, fun a s ha hsp => ?_, fun s hbyte => ?_,
    fun a s ha => raises_of_exec (execPop_bad s ha)⟩
  · obtain ⟨w, hw, hnext⟩ := exec_pop_good ha hsp
    exact ⟨_, hnext, by simp [Ne.symm ha], by simpa using hw, plainFrame_pop a _ w hfits⟩
  · obtain ⟨w, hw, hnext⟩ := exec_pop_sp_good hbyte
    obtain ⟨hregs, hframe⟩ := plainFrame_pop Config.spIndex (s.byteAt s.sp.toNat) w hfits
    exact ⟨_, hnext, by simpa using hw, fun r hr => hregs r (by simpa using hr), hframe⟩
  · exact raises_of_exec (exec_pop_fault (by rw [if_neg ha, hsp]))
  · exact raises_of_exec (exec_pop_fault (by rw [if_pos rfl, hbyte]))

/-! ### The round-trip law -/

/-- A state with the memory of a push differs from the one before in the cell below the old stack pointer alone. -/
theorem memorySameBut_of_mem_pushed {s u : State} {c v : Byte} (hc : c.toNat + 1 = s.sp.toNat)
    (hmem : u.mem = (s.pushed c v).mem) : MemorySameBut (s.sp.toNat - 1) s u := fun b hb => by
  rw [State.byteAt, hmem]
  exact memorySameBut_pushed s c v b (by omega)

/-- POP of another register than R7 in a state that a PUSH of `v` left, but for that register: the register holds `v`,
every other one is as before the PUSH, the stack pointer too. -/
theorem exec_pop_restores {a : RegIdx} {s t : State} {c v : Byte} (ha : a ≠ Config.spIndex) (hwf : s.mem.wf = true)
    (hc : c.toNat + 1 = s.sp.toNat) (hmem : t.mem = (s.pushed c v).mem) (hregs : RegsSameBut [a] (s.pushed c v) t) :
    ∃ u, exec (.pop (regByte a)) t = .next u ∧ u.reg a = v ∧ RegsSameBut [a] s u ∧
      MemorySameBut (s.sp.toNat - 1) s u ∧ u.fl = t.fl ∧ u.run = t.run ∧ u.out = t.out := by
  have hsp : t.sp = c := (hregs Config.spIndex (by simpa [eq_comm] using ha)).trans (pushed_sp s c v)
  have hbyte : t.byteAt t.sp.toNat = v := by
    rw [hsp, State.byteAt, hmem]
    exact pushed_byteAt_self hwf c v
  obtain ⟨w, hw, hnext⟩ := exec_pop_good ha (ne_255_of_toNat_lt (v := t.sp) (w := s.sp) (by rw [hsp]; omega))
  obtain rfl : w = s.sp := BitVec.eq_of_toNat_eq (by rw [hw, hsp, hc])
  rw [hbyte] at hnext
  refine ⟨_, hnext, by simp [Ne.symm ha], fun r hr => ?_, memorySameBut_of_mem_pushed hc hmem, rfl, rfl, rfl⟩
  have hra : a ≠ r := fun heq => hr (by simp [heq])
  have hold := hregs r hr
  by_cases h7 : Config.spIndex = r
  · subst h7
    simp [State.sp]
  · simpa [hra, h7] using hold

/-- PUSH R7 then POP R7: the pushed byte is the new stack pointer, and POP R7 ends with that byte plus 1, the old
one. -/
theorem exec_push_pop_sp {s : State} {c : Byte} (hwf : s.mem.wf = true) (hc : c.toNat + 1 = s.sp.toNat) :
    ∃ u, exec (.pop (regByte Config.spIndex)) ((s.pushed c c).advance 2) = .next u ∧ (∀ r, u.reg r = s.reg r) ∧
      u.mem = (s.pushed c c).mem ∧ u.fl = s.fl ∧ u.run = s.run ∧ u.out = s.out := by
  have hbyte : ((s.pushed c c).advance 2).byteAt ((s.pushed c c).advance 2).sp.toNat = c := by
    simpa using pushed_byteAt_self hwf c c
  obtain ⟨w, hw, hnext⟩ := exec_pop_sp_good (s := (s.pushed c c).advance 2)
    (hbyte.symm ▸ ne_255_of_toNat_lt (w := s.sp) (by omega))
  obtain rfl : w = s.sp := BitVec.eq_of_toNat_eq (by rw [hw, hbyte, hc])
  refine ⟨_, hnext, fun r => ?_, rfl, rfl, rfl, rfl⟩
  by_cases h7 : Config.spIndex = r
  · subst h7
    simp [State.sp]
  · simp [h7]

/-- Settles O29: `exec_pop_restores` after a PUSH of the popped register or of another one, `exec_push_pop_sp` for
R7. -/
theorem pushPopRoundTrip : Obligations.PushPopRoundTrip := by
  refine ⟨fun a s hwf hsp => ?_, fun a b s ha hb hwf hsp => ?_⟩
  · obtain ⟨c, hc, hpush⟩ := exec_push_good a hsp
    refine ⟨_, hpush, fun w => ?_⟩
    by_cases ha : a = Config.spIndex
    · subst ha
      obtain ⟨u, hpop, hregs, hmem, hrest⟩ := exec_push_pop_sp hwf hc
      exact ⟨u, by simpa using hpop, hregs, memorySameBut_of_mem_pushed hc hmem, hrest⟩
    · simp only [if_neg ha]
      obtain ⟨u, hpop, hua, hregs, hframe⟩ := exec_pop_restores (v := s.reg a)
        (t := ((s.pushed c (s.reg a)).advance 2).setReg a w) ha hwf hc rfl fun r hr => by
          simp [show a ≠ r from fun heq => hr (by simp [heq])]
      refine ⟨u, hpop, fun r => ?_, hframe⟩
      by_cases hr : r ∈ [a]
      · obtain rfl : r = a := List.mem_singleton.mp hr
        exact hua
      · exact hregs r hr
  · obtain ⟨c, hc, hpush⟩ := exec_push_good b hsp
    rw [if_neg hb] at hpush
    obtain ⟨u, hpop, hua, hregs, hmem, -⟩ := exec_pop_restores (v := s.reg b)
      (t := (s.pushed c (s.reg b)).advance 2) ha hwf hc rfl fun _ _ => rfl
    exact ⟨_, u, hpush, hpop, hua, hregs Config.spIndex (by simpa [eq_comm] using ha), hregs, hmem⟩

end Sys2Proof.Machine

/-! ## Faults by their cause (60_exceptions.md)

A RUNNING step is set against `State.faultCause` level by level: the fetch, the register bytes, then the operand
fault of the instruction. -/

namespace Sys2Proof.Machine

/-- What an outcome from `s` is for a cause of a fault: fault entry of that kind, or, with no cause, a completion. -/
def FaultsBy (s : State) (cause : Option FaultKind) (o : Host.Outcome State Fault Refusal) : Prop :=
  match cause with
  | some k => o = .next (s.raise k)
  | none => ∃ t, o = .next t ∧ t.Completed

/-- A step that faults by a cause raises exactly that kind. -/
theorem stepRaises_iff_of_faultsBy {s : State} {cause : Option FaultKind} {k : FaultKind}
    (h : FaultsBy s cause (step s)) : StepRaises s k ↔ cause = some k := by
  cases cause with
  | some k' =>
    rw [Option.some.injEq]
    constructor
    · rintro ⟨t, hstep, hrun, -⟩
      obtain rfl := Host.Outcome.next.inj (h.symm.trans hstep)
      exact (Run.faulted.inj hrun).1
    · rintro rfl
      exact ⟨_, h, raise_faultEntered s k'⟩
  | none =>
    obtain ⟨u, hu, hcompleted⟩ := h
    refine iff_of_false ?_ (by simp)
    rintro ⟨t, hstep, hrun, -⟩
    obtain rfl := Host.Outcome.next.inj (hu.symm.trans hstep)
    exact not_completed_of_faulted hrun hcompleted

/-! ### The register bytes -/

/-- A byte that is not bad names a register. -/
theorem exists_regByte {b : Byte} (h : ¬ BadReg b) : ∃ r : RegIdx, b = regByte r := by
  obtain ⟨r, hr, -⟩ | ⟨hbad, -⟩ := regIndex_cases b
  · exact ⟨r, hr⟩
  · exact absurd hbad h

/-- A bad byte in a register position raises before anything else (10_state.md R24, 60_exceptions.md R192). -/
theorem exec_bad {i : Instr} (s : State) (h : ∃ r ∈ i.regOperands, BadReg r) :
    exec i s = .next (s.raise .addressOutOfRange) := by
  cases i <;> simp only [Instr.regOperands, List.not_mem_nil, false_and, exists_false, List.mem_cons, or_false,
    exists_eq_left, exists_eq_or_imp] at h
  case ldi a imm => exact execLdi_bad imm s h
  case prn a => exact execPrn_bad s h
  case push a => exact execPush_bad s h
  case pop a => exact execPop_bad s h
  case call a => exact execCall_bad s h
  case jeq a => exact conditionalJump_bad _ s h
  case jne a => exact conditionalJump_bad _ s h
  case not a => exact aluOneRegister_bad .not s h
  all_goals exact aluTwoRegister_bad _ s h

/-! ### The operand fault of each instruction -/

/-- Writing an ALU result leaves the run state. -/
@[simp] theorem writeAluResult_run (s : State) (i : RegIdx) (r : AluResult) : (writeAluResult s i r).run = s.run := by
  cases r <;> rfl

/-- DIV and MOD raise on a zero divisor (60_exceptions.md R195). -/
theorem aluCompute_zero_divisor {o : AluOp} (ho : o = .div ∨ o = .mod) (u : Byte) :
    aluCompute o u 0 = .error .divisionByZero := by
  rcases ho with rfl | rfl <;> rfl

/-- A supported operation that is no division by 0 delivers a result. -/
theorem aluCompute_total {o : AluOp} {u v : Byte} (h : (o = .div ∨ o = .mod) → v ≠ 0) :
    ∃ r, aluCompute o u v = .ok r := by
  cases hr : aluCompute o u v with
  | ok r => exact ⟨r, rfl⟩
  | error k =>
    obtain ⟨-, hv, ho⟩ := aluCompute_error hr
    exact absurd (BitVec.eq_of_toNat_eq hv) (h ho)

section OperandFault

variable {s : State} (hrun : s.run = .running)

include hrun

/-- A two-register ALU instruction that is no division by 0 completes. -/
theorem aluTwoRegister_faultsBy_none {o : AluOp} {i j : RegIdx} (h : (o = .div ∨ o = .mod) → s.reg j ≠ 0) :
    FaultsBy s none (aluTwoRegister o (regByte i) (regByte j) s) := by
  obtain ⟨r, hr⟩ := aluCompute_total (u := s.reg i) h
  exact ⟨(writeAluResult s i r).advance 3, by rw [aluTwoRegister_good, hr]; rfl, .inl (by simpa using hrun)⟩

/-- DIV and MOD raise exactly when the divisor register holds 0. -/
theorem aluTwoRegister_faultsBy_divisor {o : AluOp} (ho : o = .div ∨ o = .mod) (i j : RegIdx) :
    FaultsBy s (if ∃ r : RegIdx, regByte j = regByte r ∧ s.reg r = 0 then some .divisionByZero else none)
      (aluTwoRegister o (regByte i) (regByte j) s) := by
  split
  case isTrue h =>
    obtain ⟨r, hjr, hr⟩ := h
    obtain rfl := regByte_inj hjr
    change aluTwoRegister o (regByte i) (regByte j) s = .next (s.raise .divisionByZero)
    rw [aluTwoRegister_good, hr, aluCompute_zero_divisor ho]
    rfl
  case isFalse h =>
    exact aluTwoRegister_faultsBy_none hrun fun _ hj => h ⟨j, rfl, hj⟩

/-- NOT completes. -/
theorem execNot_faultsBy (i : RegIdx) : FaultsBy s none (execNot (regByte i) s) := by
  obtain ⟨r, hr⟩ := aluCompute_total (o := .not) (u := s.reg i) (v := s.reg i) (by simp)
  exact ⟨(writeAluResult s i r).advance 2, by rw [execNot, aluOneRegister_good, hr]; rfl, .inl (by simpa using hrun)⟩

/-- A conditional jump completes, taken or not. -/
theorem conditionalJump_faultsBy (taken : Bool) (i : RegIdx) :
    FaultsBy s none (conditionalJump taken (regByte i) s) :=
  ⟨_, conditionalJump_good taken i s, .inl (by cases taken <;> simpa using hrun)⟩

/-- PUSH raises exactly with the stack pointer 0 (60_exceptions.md R192). -/
theorem exec_push_faultsBy (i : RegIdx) (b : Byte) :
    FaultsBy s (operandFault s .push (regByte i) b) (exec (.push (regByte i)) s) := by
  rw [operandFault]
  split
  case isTrue h => exact exec_push_fault i h
  case isFalse h =>
    obtain ⟨c, -, hnext⟩ := exec_push_good i h
    exact ⟨_, hnext, .inl hrun⟩

/-- POP raises exactly when the value it increments is 255 (60_exceptions.md R192, decision D18). -/
theorem exec_pop_faultsBy (i : RegIdx) (b : Byte) :
    FaultsBy s (operandFault s .pop (regByte i) b) (exec (.pop (regByte i)) s) := by
  have hi : regByte i = regByte Config.spIndex ↔ i = Config.spIndex := ⟨regByte_inj, congrArg regByte⟩
  simp only [operandFault, hi]
  rcases execPop_good i s with ⟨h255, hfault⟩ | ⟨w, hw, hnext⟩
  · rw [if_pos h255]
    exact hfault
  · rw [if_neg (ne_255_of_toNat_lt (w := w) (by omega))]
    exact ⟨_, hnext, .inl hrun⟩

/-- CALL inside memory raises exactly with the stack pointer 0 or at address 254 (60_exceptions.md R192). -/
theorem exec_call_faultsBy (i : RegIdx) (b : Byte) (hfits : s.Fits 2) :
    FaultsBy s (operandFault s .call (regByte i) b) (exec (.call (regByte i)) s) := by
  have hend : s.pc = 254 ↔ s.pc.toNat = 254 := ⟨fun h => by rw [h]; rfl, fun h => BitVec.eq_of_toNat_eq h⟩
  simp only [operandFault, hend]
  split
  case isTrue h => exact exec_call_fault i (h.imp_right fun h254 => by omega)
  case isFalse h =>
    obtain ⟨hsp, hpc⟩ := not_or.mp h
    obtain ⟨c, r, -, -, hnext⟩ := exec_call_good i (by omega) hsp
    exact ⟨_, hnext, .inl hrun⟩

/-- RET raises exactly with the stack pointer 255 (60_exceptions.md R192). -/
theorem exec_ret_faultsBy (a b : Byte) : FaultsBy s (operandFault s .ret a b) (exec .ret s) := by
  rw [operandFault]
  split
  case isTrue h => exact exec_ret_fault h
  case isFalse h =>
    obtain ⟨t, hnext, -, -, -, -, hrun', -⟩ := exec_ret_pops h
    exact ⟨t, hnext, .inl (hrun'.trans hrun)⟩

/-- An instruction inside memory whose register bytes are good faults by its operand fault. -/
theorem exec_faultsBy_operandFault (o : Op) (a b : Byte) (hfits : s.Fits o.length)
    (hgood : ∀ r ∈ (o.assemble a b).regOperands, ¬ BadReg r) :
    FaultsBy s (operandFault s o a b) (exec (o.assemble a b) s) := by
  cases o with
  | hlt => exact ⟨_, exec_hlt s, .inr rfl⟩
  | ret => exact exec_ret_faultsBy hrun a b
  | ldi =>
    obtain ⟨i, rfl⟩ := exists_regByte (hgood a List.mem_cons_self)
    exact ⟨_, exec_ldi_good i b s, .inl hrun⟩
  | prn =>
    obtain ⟨i, rfl⟩ := exists_regByte (hgood a List.mem_cons_self)
    exact ⟨_, exec_prn_good i s, .inl hrun⟩
  | push =>
    obtain ⟨i, rfl⟩ := exists_regByte (hgood a List.mem_cons_self)
    exact exec_push_faultsBy hrun i b
  | pop =>
    obtain ⟨i, rfl⟩ := exists_regByte (hgood a List.mem_cons_self)
    exact exec_pop_faultsBy hrun i b
  | call =>
    obtain ⟨i, rfl⟩ := exists_regByte (hgood a List.mem_cons_self)
    exact exec_call_faultsBy hrun i b hfits
  | jeq | jne =>
    obtain ⟨i, rfl⟩ := exists_regByte (hgood a List.mem_cons_self)
    exact conditionalJump_faultsBy hrun _ i
  | not =>
    obtain ⟨i, rfl⟩ := exists_regByte (hgood a List.mem_cons_self)
    exact execNot_faultsBy hrun i
  | div | mod =>
    obtain ⟨i, rfl⟩ := exists_regByte (hgood a List.mem_cons_self)
    obtain ⟨j, rfl⟩ := exists_regByte (hgood b (List.mem_cons_of_mem _ List.mem_cons_self))
    exact aluTwoRegister_faultsBy_divisor hrun (by simp) i j
  | add | sub | mul | cmp | and | or | xor | shl | shr =>
    obtain ⟨i, rfl⟩ := exists_regByte (hgood a List.mem_cons_self)
    obtain ⟨j, rfl⟩ := exists_regByte (hgood b (List.mem_cons_of_mem _ List.mem_cons_self))
    exact aluTwoRegister_faultsBy_none hrun (by simp)

/-- A RUNNING step faults by the first cause in the order of 60_exceptions.md R200. -/
theorem step_faultsBy_faultCause : FaultsBy s s.faultCause (step s) := by
  unfold State.faultCause
  rcases fetchWith_cases Config.spec s with ⟨hpc, hf⟩ | ⟨hpc, hop, hf⟩ | ⟨o, hpc, hop, hrest⟩
  · rw [if_pos hpc]
    exact stepWith_raise hrun hf
  · rw [if_neg (Nat.not_lt_of_le hpc), hop]
    exact stepWith_raise hrun hf
  · rw [if_neg (Nat.not_lt_of_le hpc), hop]
    dsimp only
    rcases hrest with ⟨hend, hf⟩ | ⟨hfits, hf⟩
    · rw [if_pos hend]
      exact stepWith_raise hrun hf
    · rw [if_neg (Nat.not_lt_of_le hfits), step, stepWith_exec hrun hf]
      split
      case isTrue hbad => exact exec_bad s hbad
      case isFalse hbad =>
        exact exec_faultsBy_operandFault hrun o _ _ hfits fun r hr hb => hbad ⟨r, hr, hb⟩

end OperandFault

/-- Settles O45: `step_faultsBy_faultCause`, and a load raises on length alone. -/
theorem stepFaultsExactlyByCause : Obligations.StepFaultsExactlyByCause :=
  ⟨fun _ _ hrun => stepRaises_iff_of_faultsBy (step_faultsBy_faultCause hrun), launch_eq_error_iff⟩

end Sys2Proof.Machine
